-- ==== Sys2Proof/Word.lean ====
section
/-! DEFINITION. The words of the machine (00_scope.md R5): every value is an unsigned bit vector of a fixed width. -/

namespace Sys2Proof

/-- A hex digit: an instruction's register number, sprite height or opcode digit, and a key index. -/
abbrev Nibble := BitVec 4

/-- A byte: a memory cell, a general register, a timer. -/
abbrev Byte := BitVec 8

/-- A 12-bit address literal `nnn`. -/
abbrev Addr12 := BitVec 12

/-- A 16-bit word: an instruction, `pc`, `i`, a stack entry. -/
abbrev Word := BitVec 16

end Sys2Proof
end

