-- ==== Sys2Proof/Syntax.lean ====
section
/-! DEFINITION. The instructions: one constructor per row of the opcode map (30_encoding.md R50, R55), in its order. -/

namespace Sys2Proof

/-- An instruction with its operand fields (30_encoding.md R46, R47). Register operands are 4-bit numbers, so every
operand value an encoding admits is a value of the type, and no other is. -/
inductive Instr where
  /-- `00E0`, `CLS` (44_display.md R133). -/
  | cls
  /-- `00EE`, `RET` (41_control_flow.md R83). -/
  | ret
  /-- `1nnn`, `JP nnn` (41_control_flow.md R81). -/
  | jp (nnn : Addr12)
  /-- `2nnn`, `CALL nnn` (41_control_flow.md R82). -/
  | call (nnn : Addr12)
  /-- `3xkk`, `SE Vx,kk` (41_control_flow.md R85). -/
  | seImm (x : Nibble) (kk : Byte)
  /-- `4xkk`, `SNE Vx,kk` (41_control_flow.md R86). -/
  | sneImm (x : Nibble) (kk : Byte)
  /-- `5xy0`, `SE Vx,Vy` (41_control_flow.md R87). -/
  | seReg (x y : Nibble)
  /-- `6xkk`, `LD Vx,kk` (42_register_alu.md R101). -/
  | ldImm (x : Nibble) (kk : Byte)
  /-- `7xkk`, `ADD Vx,kk` (42_register_alu.md R102). -/
  | addImm (x : Nibble) (kk : Byte)
  /-- `8xy0`, `LD Vx,Vy` (42_register_alu.md R103). -/
  | ldReg (x y : Nibble)
  /-- `8xy1`, `OR Vx,Vy` (42_register_alu.md R104). -/
  | orReg (x y : Nibble)
  /-- `8xy2`, `AND Vx,Vy` (42_register_alu.md R105). -/
  | andReg (x y : Nibble)
  /-- `8xy3`, `XOR Vx,Vy` (42_register_alu.md R106). -/
  | xorReg (x y : Nibble)
  /-- `8xy4`, `ADD Vx,Vy` (42_register_alu.md R107). -/
  | addReg (x y : Nibble)
  /-- `8xy5`, `SUB Vx,Vy` (42_register_alu.md R108). -/
  | subReg (x y : Nibble)
  /-- `8xy6`, `SHR Vx` (42_register_alu.md R109); the `y` digit is encoded and ignored (log 7). -/
  | shr (x y : Nibble)
  /-- `8xy7`, `SUBN Vx,Vy` (42_register_alu.md R110). -/
  | subnReg (x y : Nibble)
  /-- `8xyE`, `SHL Vx` (42_register_alu.md R111); the `y` digit is encoded and ignored (log 7). -/
  | shl (x y : Nibble)
  /-- `9xy0`, `SNE Vx,Vy` (41_control_flow.md R88). -/
  | sneReg (x y : Nibble)
  /-- `Annn`, `LD I,nnn` (43_index_memory.md R121). -/
  | ldI (nnn : Addr12)
  /-- `Bnnn`, `JP V0,nnn` (41_control_flow.md R84). -/
  | jpV0 (nnn : Addr12)
  /-- `Cxkk`, `RND Vx,kk` (42_register_alu.md R112). -/
  | rnd (x : Nibble) (kk : Byte)
  /-- `Dxyn`, `DRW Vx,Vy,n` (44_display.md R134). -/
  | drw (x y n : Nibble)
  /-- `Ex9E`, `SKP Vx` (45_keypad_timers.md R141). -/
  | skp (x : Nibble)
  /-- `ExA1`, `SKNP Vx` (45_keypad_timers.md R142). -/
  | sknp (x : Nibble)
  /-- `Fx07`, `LD Vx,DT` (45_keypad_timers.md R144). -/
  | ldVxDT (x : Nibble)
  /-- `Fx0A`, `LD Vx,K` (45_keypad_timers.md R143). -/
  | ldVxK (x : Nibble)
  /-- `Fx15`, `LD DT,Vx` (45_keypad_timers.md R145). -/
  | ldDTVx (x : Nibble)
  /-- `Fx18`, `LD ST,Vx` (45_keypad_timers.md R146). -/
  | ldSTVx (x : Nibble)
  /-- `Fx1E`, `ADD I,Vx` (43_index_memory.md R122). -/
  | addI (x : Nibble)
  /-- `Fx29`, `LD F,Vx` (43_index_memory.md R123). -/
  | ldF (x : Nibble)
  /-- `Fx33`, `LD B,Vx` (43_index_memory.md R124). -/
  | ldB (x : Nibble)
  /-- `Fx55`, `LD [I],Vx` (43_index_memory.md R125). -/
  | storeRegs (x : Nibble)
  /-- `Fx65`, `LD Vx,[I]` (43_index_memory.md R126). -/
  | loadRegs (x : Nibble)
  /-- Any other word: the default no-op `NOP*` (41_control_flow.md R89), with the word it was (log 7). -/
  | nop (word : Word)
  deriving DecidableEq, Repr

end Sys2Proof
end

