-- ==== Sys2Proof/WellFormed.lean ====
section
/-! DEFINITION. Which instructions have an encoding: all of them, but `nop` carries one of the words 30_encoding.md R52 lists. -/

namespace Sys2Proof

/-- The unrecognized words, group by group as 30_encoding.md R52 lists them, by arithmetic on the word's value. -/
def unrecognized (word : Word) : Bool :=
  let w := word.toNat
  let n := w % 16
  let kk := w % 256
  match w / 4096 with
  | 0x0 => w != 0x00E0 && w != 0x00EE
  | 0x5 => n != 0
  | 0x8 => n ∈ [0x8, 0x9, 0xA, 0xB, 0xC, 0xD, 0xF]
  | 0x9 => n != 0
  | 0xE => kk ∉ [0x9E, 0xA1]
  | 0xF => kk ∉ [0x07, 0x0A, 0x15, 0x18, 0x1E, 0x29, 0x33, 0x55, 0x65]
  | _ => false

/-- An instruction is well formed when it has an encoding. The field types bound every operand already; only the
default case's word can be one that is not its own. -/
def wellFormed : Instr → Bool
  | .cls => true
  | .ret => true
  | .jp _ => true
  | .call _ => true
  | .seImm _ _ => true
  | .sneImm _ _ => true
  | .seReg _ _ => true
  | .ldImm _ _ => true
  | .addImm _ _ => true
  | .ldReg _ _ => true
  | .orReg _ _ => true
  | .andReg _ _ => true
  | .xorReg _ _ => true
  | .addReg _ _ => true
  | .subReg _ _ => true
  | .shr _ _ => true
  | .subnReg _ _ => true
  | .shl _ _ => true
  | .sneReg _ _ => true
  | .ldI _ => true
  | .jpV0 _ => true
  | .rnd _ _ => true
  | .drw _ _ _ => true
  | .skp _ => true
  | .sknp _ => true
  | .ldVxDT _ => true
  | .ldVxK _ => true
  | .ldDTVx _ => true
  | .ldSTVx _ => true
  | .addI _ => true
  | .ldF _ => true
  | .ldB _ => true
  | .storeRegs _ => true
  | .loadRegs _ => true
  | .nop word => unrecognized word

end Sys2Proof
end

