-- ==== Sys2Proof/Decode.lean ====
section
/-! DEFINITION. The decoder, from the opcode map of 30_encoding.md R50 as a table of nibble patterns, and the encoder (R54). -/

namespace Sys2Proof

/-! ### Fields (30_encoding.md R46) -/

/-- Nibble 0, the major opcode, `w[15:12]`. -/
def fieldOp (w : Word) : Nibble := w.extractLsb' 12 4

/-- Nibble 1, `x = w[11:8]`. -/
def fieldX (w : Word) : Nibble := w.extractLsb' 8 4

/-- Nibble 2, `y = w[7:4]`. -/
def fieldY (w : Word) : Nibble := w.extractLsb' 4 4

/-- Nibble 3, `n = w[3:0]`. -/
def fieldN (w : Word) : Nibble := w.extractLsb' 0 4

/-- `nnn = w[11:0]`. -/
def fieldNnn (w : Word) : Addr12 := w.extractLsb' 0 12

/-- `kk = w[7:0]`. -/
def fieldKk (w : Word) : Byte := w.extractLsb' 0 8

/-! ### Dispatch patterns (30_encoding.md R49) -/

/-- A pattern of four positions, nibble 0 first, each a fixed hex digit or a wildcard. -/
structure Pattern where
  d0 : Option Nibble
  d1 : Option Nibble
  d2 : Option Nibble
  d3 : Option Nibble
  deriving DecidableEq, Repr

/-- A position matches a digit when it is a wildcard or that digit. -/
def digitMatches (p : Option Nibble) (d : Nibble) : Bool :=
  match p with
  | none => true
  | some q => q == d

/-- A word matches a pattern when each of its four nibbles does (R49). -/
def patternMatches (p : Pattern) (w : Word) : Bool :=
  digitMatches p.d0 (fieldOp w) && digitMatches p.d1 (fieldX w) &&
    digitMatches p.d2 (fieldY w) && digitMatches p.d3 (fieldN w)

/-- The `mask` column of R50: 0xF in every fixed position, 0 in every wildcard position. -/
def patternMask (p : Pattern) : Word :=
  let m (d : Option Nibble) : Nibble := if d.isSome then 0xF else 0
  (m p.d0 ++ m p.d1 ++ m p.d2 ++ m p.d3 : BitVec (4 + 4 + 4 + 4))

/-- The `match` column of R50: the fixed digits, 0 in every wildcard position. -/
def patternBits (p : Pattern) : Word :=
  (p.d0.getD 0 ++ p.d1.getD 0 ++ p.d2.getD 0 ++ p.d3.getD 0 : BitVec (4 + 4 + 4 + 4))

/-- One row of the opcode map: its pattern, and the instruction a matching word stands for. -/
structure Row where
  pattern : Pattern
  build : Word → Instr

/-- Rows 1 to 9 of R50: the groups 0 to 7. -/
def rowsControl : List Row :=
  [ ⟨⟨some 0x0, some 0x0, some 0xE, some 0x0⟩, fun _ => .cls⟩,
    ⟨⟨some 0x0, some 0x0, some 0xE, some 0xE⟩, fun _ => .ret⟩,
    ⟨⟨some 0x1, none, none, none⟩, fun w => .jp (fieldNnn w)⟩,
    ⟨⟨some 0x2, none, none, none⟩, fun w => .call (fieldNnn w)⟩,
    ⟨⟨some 0x3, none, none, none⟩, fun w => .seImm (fieldX w) (fieldKk w)⟩,
    ⟨⟨some 0x4, none, none, none⟩, fun w => .sneImm (fieldX w) (fieldKk w)⟩,
    ⟨⟨some 0x5, none, none, some 0x0⟩, fun w => .seReg (fieldX w) (fieldY w)⟩,
    ⟨⟨some 0x6, none, none, none⟩, fun w => .ldImm (fieldX w) (fieldKk w)⟩,
    ⟨⟨some 0x7, none, none, none⟩, fun w => .addImm (fieldX w) (fieldKk w)⟩ ]

/-- Rows 10 to 18 of R50: the register-register group 8. The `y` digit of `8xy6` and `8xyE` is a wildcard (R49, D2). -/
def rowsAlu : List Row :=
  [ ⟨⟨some 0x8, none, none, some 0x0⟩, fun w => .ldReg (fieldX w) (fieldY w)⟩,
    ⟨⟨some 0x8, none, none, some 0x1⟩, fun w => .orReg (fieldX w) (fieldY w)⟩,
    ⟨⟨some 0x8, none, none, some 0x2⟩, fun w => .andReg (fieldX w) (fieldY w)⟩,
    ⟨⟨some 0x8, none, none, some 0x3⟩, fun w => .xorReg (fieldX w) (fieldY w)⟩,
    ⟨⟨some 0x8, none, none, some 0x4⟩, fun w => .addReg (fieldX w) (fieldY w)⟩,
    ⟨⟨some 0x8, none, none, some 0x5⟩, fun w => .subReg (fieldX w) (fieldY w)⟩,
    ⟨⟨some 0x8, none, none, some 0x6⟩, fun w => .shr (fieldX w) (fieldY w)⟩,
    ⟨⟨some 0x8, none, none, some 0x7⟩, fun w => .subnReg (fieldX w) (fieldY w)⟩,
    ⟨⟨some 0x8, none, none, some 0xE⟩, fun w => .shl (fieldX w) (fieldY w)⟩ ]

/-- Rows 19 to 25 of R50: the groups 9 to E. -/
def rowsMiddle : List Row :=
  [ ⟨⟨some 0x9, none, none, some 0x0⟩, fun w => .sneReg (fieldX w) (fieldY w)⟩,
    ⟨⟨some 0xA, none, none, none⟩, fun w => .ldI (fieldNnn w)⟩,
    ⟨⟨some 0xB, none, none, none⟩, fun w => .jpV0 (fieldNnn w)⟩,
    ⟨⟨some 0xC, none, none, none⟩, fun w => .rnd (fieldX w) (fieldKk w)⟩,
    ⟨⟨some 0xD, none, none, none⟩, fun w => .drw (fieldX w) (fieldY w) (fieldN w)⟩,
    ⟨⟨some 0xE, none, some 0x9, some 0xE⟩, fun w => .skp (fieldX w)⟩,
    ⟨⟨some 0xE, none, some 0xA, some 0x1⟩, fun w => .sknp (fieldX w)⟩ ]

/-- Rows 26 to 34 of R50: the group F. -/
def rowsF : List Row :=
  [ ⟨⟨some 0xF, none, some 0x0, some 0x7⟩, fun w => .ldVxDT (fieldX w)⟩,
    ⟨⟨some 0xF, none, some 0x0, some 0xA⟩, fun w => .ldVxK (fieldX w)⟩,
    ⟨⟨some 0xF, none, some 0x1, some 0x5⟩, fun w => .ldDTVx (fieldX w)⟩,
    ⟨⟨some 0xF, none, some 0x1, some 0x8⟩, fun w => .ldSTVx (fieldX w)⟩,
    ⟨⟨some 0xF, none, some 0x1, some 0xE⟩, fun w => .addI (fieldX w)⟩,
    ⟨⟨some 0xF, none, some 0x2, some 0x9⟩, fun w => .ldF (fieldX w)⟩,
    ⟨⟨some 0xF, none, some 0x3, some 0x3⟩, fun w => .ldB (fieldX w)⟩,
    ⟨⟨some 0xF, none, some 0x5, some 0x5⟩, fun w => .storeRegs (fieldX w)⟩,
    ⟨⟨some 0xF, none, some 0x6, some 0x5⟩, fun w => .loadRegs (fieldX w)⟩ ]

/-- Rows 1 to 34 of the opcode map (R50); row 35 is what matches none of them. -/
def opcodeRows : List Row := rowsControl ++ rowsAlu ++ rowsMiddle ++ rowsF

/-! ### Decoding -/

/-- Every 16-bit word is an instruction: the row it matches, or the default no-op (R49, R51). -/
def decodeWord (w : Word) : Instr :=
  match opcodeRows.find? (fun r => patternMatches r.pattern w) with
  | some r => r.build w
  | none => .nop w

/-- What decoding a sequence of bytes gives. -/
inductive Decoded where
  /-- An instruction and the bytes after it. -/
  | instr (i : Instr) (rest : List Byte)
  /-- Fewer than two bytes: no instruction word (R45). -/
  | truncated (present : Nat)
  deriving DecidableEq, Repr

/-- The word of two consecutive bytes, high byte first (20_memory.md R33). -/
def wordOfBytes (hi lo : Byte) : Word := (hi ++ lo : BitVec (8 + 8))

/-- Decode the first instruction of a byte sequence: two bytes, always (R45). -/
def decode : List Byte → Decoded
  | hi :: lo :: rest => .instr (decodeWord (wordOfBytes hi lo)) rest
  | [_] => .truncated 1
  | [] => .truncated 0

/-! ### Encoding (30_encoding.md R54) -/

/-- Format E, X, R, D: four digits, nibble 0 first. -/
def word4 (a b c d : Nibble) : Word := (a ++ b ++ c ++ d : BitVec (4 + 4 + 4 + 4))

/-- Format I: a digit, `x`, `kk`. -/
def wordXkk (a x : Nibble) (kk : Byte) : Word := (a ++ x ++ kk : BitVec (4 + 4 + 8))

/-- Format A: a digit and `nnn`. -/
def wordNnn (a : Nibble) (nnn : Addr12) : Word := (a ++ nnn : BitVec (4 + 12))

/-- The word of an instruction. -/
def encodeWord : Instr → Word
  | .cls => word4 0x0 0x0 0xE 0x0
  | .ret => word4 0x0 0x0 0xE 0xE
  | .jp nnn => wordNnn 0x1 nnn
  | .call nnn => wordNnn 0x2 nnn
  | .seImm x kk => wordXkk 0x3 x kk
  | .sneImm x kk => wordXkk 0x4 x kk
  | .seReg x y => word4 0x5 x y 0x0
  | .ldImm x kk => wordXkk 0x6 x kk
  | .addImm x kk => wordXkk 0x7 x kk
  | .ldReg x y => word4 0x8 x y 0x0
  | .orReg x y => word4 0x8 x y 0x1
  | .andReg x y => word4 0x8 x y 0x2
  | .xorReg x y => word4 0x8 x y 0x3
  | .addReg x y => word4 0x8 x y 0x4
  | .subReg x y => word4 0x8 x y 0x5
  | .shr x y => word4 0x8 x y 0x6
  | .subnReg x y => word4 0x8 x y 0x7
  | .shl x y => word4 0x8 x y 0xE
  | .sneReg x y => word4 0x9 x y 0x0
  | .ldI nnn => wordNnn 0xA nnn
  | .jpV0 nnn => wordNnn 0xB nnn
  | .rnd x kk => wordXkk 0xC x kk
  | .drw x y n => word4 0xD x y n
  | .skp x => word4 0xE x 0x9 0xE
  | .sknp x => word4 0xE x 0xA 0x1
  | .ldVxDT x => word4 0xF x 0x0 0x7
  | .ldVxK x => word4 0xF x 0x0 0xA
  | .ldDTVx x => word4 0xF x 0x1 0x5
  | .ldSTVx x => word4 0xF x 0x1 0x8
  | .addI x => word4 0xF x 0x1 0xE
  | .ldF x => word4 0xF x 0x2 0x9
  | .ldB x => word4 0xF x 0x3 0x3
  | .storeRegs x => word4 0xF x 0x5 0x5
  | .loadRegs x => word4 0xF x 0x6 0x5
  | .nop word => word

/-- The high byte of a word, `w div 256` (R54). -/
def highByte (w : Word) : Byte := w.extractLsb' 8 8

/-- The low byte of a word, `w mod 256` (R54). -/
def lowByte (w : Word) : Byte := w.extractLsb' 0 8

/-- The two bytes of an instruction as they lie in memory, the high byte at the lower address (R54). -/
def encode (i : Instr) : List Byte := [highByte (encodeWord i), lowByte (encodeWord i)]

/-! ### The opcode table's numbering -/

/-- The instruction word of a value whose `nbits` lowest bits are the instruction's, bit 0 the least significant bit
of the word; every bit above is 0. -/
def tableWord (nbits w : Nat) : Word := BitVec.ofNat 16 (w % 2 ^ nbits)

/-- The decoder on an instruction numbered as spec/opcode_table.json numbers it: its word laid out as memory holds it,
high byte first, and decoded. -/
def decodeTableWord (nbits w : Nat) : Option Instr :=
  match decode [highByte (tableWord nbits w), lowByte (tableWord nbits w)] with
  | .instr i _ => some i
  | .truncated _ => none

end Sys2Proof
end

