-- ==== Sys2Proof/Machine/State.lean ====
section
/-! DEFINITION. The state of the machine as plain data (10_state.md R10 to R24), its faults, and the state after reset. -/

namespace Sys2Proof.Machine

/-- The four causes a cycle can latch (10_state.md R20, 60_exceptions.md R160). An instruction or a fetch that raises
one is a NEXT state in which the latch holds the cause (R163); `step` answers the cause as a fault in a state whose
latch holds it (R164, 40_cycle_and_host.md R67). -/
inductive Fault where
  /-- `CALL` with `sp = 16` (41_control_flow.md R82). Mandated by the source; answered by `step` in the latched state; safe. -/
  | stackOverflow
  /-- `RET` with `sp = 0` (41_control_flow.md R83). Mandated by the source; answered by `step` in the latched state; safe. -/
  | stackUnderflow
  /-- A fetch, `DRW`, `LD B,Vx`, `LD [I],Vx` or `LD Vx,[I]` with a byte above 0xFFF (20_memory.md R35, D5). Answered by
  `step` in the latched state; safe (60_exceptions.md R176). -/
  | memOutOfBounds
  /-- `SKP` or `SKNP` with `v[x] > 15` (45_keypad_timers.md R141, R142, D6). Answered by `step` in the latched state;
  safe (60_exceptions.md R176). -/
  | keyIndexOutOfRange
  deriving DecidableEq, Repr

/-- Why an instruction has no meaning. -/
inductive Refusal where
  /-- The instruction has no meaning yet. No arm of `exec` answers it: every row of the table is modelled. Safe. -/
  | notModelled (mnemonic : String)
  deriving DecidableEq, Repr

/-- Memory: the cells that differ from their reset contents, addresses strictly rising (log 6). -/
abbrev Memory := List Host.Cell

/-- The framebuffer `fb[row][col]` (10_state.md R18): 32 rows of 64 cells, `true` is on. -/
abbrev Framebuffer := Vector (Vector Bool 64) 32

/-- The state (10_state.md R24); the last two fields are the model's own (log 2). -/
structure State where
  /-- The general registers `v[0]` to `v[15]` (R10); `v[15]` is also the flag `VF` (R11). -/
  v : Vector Byte 16
  /-- The index register (R12). -/
  i : Word
  /-- The program counter (R13). -/
  pc : Word
  /-- The call stack (R14). -/
  stack : Vector Word 16
  /-- The stack pointer, 0 to 16 (R15, log 5). -/
  sp : Fin 17
  /-- The delay timer (R16). -/
  dt : Byte
  /-- The sound timer (R16). -/
  st : Byte
  /-- The memory (R17). -/
  mem : Memory
  /-- The framebuffer (R18). -/
  fb : Framebuffer
  /-- The keypad register, bit `k` for key `k`, 1 is pressed (R19). -/
  key : Word
  /-- The fault latch, `none` when no fault is latched (R20). -/
  fault : Option Fault
  /-- The model's own: entropy bytes the host has supplied and no `RND` has consumed, oldest first
  (40_cycle_and_host.md R74). -/
  entropy : List Byte
  /-- The model's own: how many `RND` have executed, the index of the next free entropy byte. -/
  draws : Nat
  deriving DecidableEq, Repr

/-- The state after `construct()` and `reset()` (10_state.md R24, 70_reset_and_hazards.md R180): the font and zeros in
memory are what an unlisted address reads as, so no cell is listed. -/
def State.reset : State where
  v := Vector.replicate 16 0
  i := 0
  pc := 0x200
  stack := Vector.replicate 16 0
  sp := 0
  dt := 0
  st := 0
  mem := []
  fb := Vector.replicate 32 (Vector.replicate 64 false)
  key := 0
  fault := none
  entropy := []
  draws := 0

end Sys2Proof.Machine
end

