-- ==== Sys2Proof/Machine/Ops.lean ====
section
/-! DEFINITION. The named operations over memory, registers, stack, timers, program counter and fault latch. -/

namespace Sys2Proof.Machine

/-- What an instruction answers. -/
abbrev Result := Host.Outcome State Fault Refusal

/-! ### Memory (20_memory.md) -/

/-- `MEM_SIZE` (00_scope.md R3): addresses 0x000 to 0xFFF. -/
abbrev memSize : Nat := 4096

/-- `PROGRAM_BASE` (00_scope.md R3): where `load` puts a program. -/
abbrev programBase : Nat := 0x200

/-- What an address nothing has written reads as, its reset contents: the font in its 80 bytes from 0x000, else zero
(20_memory.md R31). -/
def unlisted (a : Nat) : Byte := font.getD a 0

/-- `mem[a]`. -/
def Memory.read : Memory → Nat → Byte
  | [], a => unlisted a
  | (k, b) :: m, a => if k = a then b else Memory.read m a

/-- Forget what is listed at `a`. -/
def Memory.erase (m : Memory) (a : Nat) : Memory := m.filter (fun c => c.1 ≠ a)

/-- List the cell `(a, b)` before the first cell of a higher address. -/
def Memory.insert : Memory → Nat → Byte → Memory
  | [], a, b => [(a, b)]
  | (k, c) :: m, a, b => if a < k then (a, b) :: (k, c) :: m else (k, c) :: Memory.insert m a b

/-- `mem[a] <- b`, in canonical form: writing an address's reset contents unlists it. -/
def Memory.write (m : Memory) (a : Nat) (b : Byte) : Memory :=
  if b = unlisted a then m.erase a else (m.erase a).insert a b

/-- Addresses strictly rise from `lo` on. -/
def Memory.risesFrom : Memory → Nat → Bool
  | [], _ => true
  | (k, _) :: m, lo => decide (lo ≤ k) && Memory.risesFrom m (k + 1)

/-- The canonical form: addresses strictly rising and inside the address space, and no cell listed that holds what it
would read as unlisted. -/
def Memory.wf (m : Memory) : Bool :=
  m.risesFrom 0 && m.all (fun c => decide (c.1 < memSize) && c.2 != unlisted c.1)

/-- Bytes stored at ascending addresses from `a` (20_memory.md R36). -/
def Memory.writeBytes : Memory → Nat → List Byte → Memory
  | m, _, [] => m
  | m, a, b :: bs => Memory.writeBytes (m.write a b) (a + 1) bs

/-- The `len` bytes at ascending addresses from `a`. -/
def Memory.readBytes (m : Memory) (a len : Nat) : List Byte :=
  (List.range len).map fun k => m.read (a + k)

/-- Whether every byte of `a .. a + len - 1` exists: the sum is on naturals and never wraps, and no byte is no access
(20_memory.md R35). -/
def inBounds (a len : Nat) : Bool := len == 0 || decide (a + len ≤ memSize)

/-! ### Registers (10_state.md R10) -/

/-- `v[x]`. -/
def State.reg (s : State) (x : Nibble) : Byte := s.v[x.toNat]'x.isLt

/-- `v[x] <- b`. -/
def State.setReg (s : State) (x : Nibble) (b : Byte) : State :=
  { s with v := s.v.set x.toNat b x.isLt }

/-- `VF`, register 15 (10_state.md R11). -/
def vf : Nibble := 0xF

/-- The registers `v[0] .. v[n - 1]`. -/
def State.regsBelow (s : State) (n : Nat) : List Byte :=
  (List.range n).map fun k => s.reg (BitVec.ofNat 4 k)

/-- Write consecutive registers from `v[k]` on, ascending. -/
def State.setRegsFrom : State → Nat → List Byte → State
  | s, _, [] => s
  | s, k, b :: bs => State.setRegsFrom (s.setReg (BitVec.ofNat 4 k) b) (k + 1) bs

/-! ### Raising a fault (60_exceptions.md R163) -/

/-- `raise f`: latch the cause and abandon the rest of the cycle. The caller passes the state before any write of the
instruction, so `pc` still addresses it and only the latch changes (R163, R165). There is no handler and no return
from a fault (R166): the host's `reset` is the way out. -/
def raise (f : Fault) (s : State) : Result := .next { s with fault := some f }

/-- The range check of the instructions that access `len` bytes at `i`, made before their first access: out of
bounds, they raise `MemOutOfBounds` and do nothing (43_index_memory.md R127). -/
def withRange (len : Nat) (s : State) (body : Result) : Result :=
  if inBounds s.i.toNat len then body else raise .memOutOfBounds s

/-! ### The program counter (40_cycle_and_host.md R64) -/

/-- What an instruction tells the engine to do with `pc`. -/
inductive Directive where
  /-- `pc <- pc + 2`. -/
  | next
  /-- `pc <- pc + 4`. -/
  | skip
  /-- `pc <- a`. -/
  | jump (a : Word)
  /-- `pc` unchanged: a waiting `LD Vx,K`. -/
  | stay
  deriving DecidableEq, Repr

/-- The `pc` after a directive, in 16 bits. -/
def Directive.target : Directive → Word → Word
  | .next, pc => pc + 2
  | .skip, pc => pc + 4
  | .jump a, _ => a
  | .stay, pc => pc

/-- The end of an instruction: its writes are in `s`, the engine applies its directive. -/
def finish (d : Directive) (s : State) : Result := .next { s with pc := d.target s.pc }

/-- `Skip` when the condition holds, else `Next`. -/
def skipIf (c : Bool) : Directive := if c then .skip else .next

/-! ### The call stack (41_control_flow.md R82, R83) -/

/-- Push a return address, or `none` when the stack is full. -/
def State.push (s : State) (a : Word) : Option State :=
  if h : s.sp.val < 16 then
    some { s with stack := s.stack.set s.sp.val a h, sp := ⟨s.sp.val + 1, by omega⟩ }
  else none

/-- Pop a return address, or `none` when the stack is empty. The entry keeps its value (10_state.md R14). -/
def State.pop (s : State) : Option (Word × State) :=
  if h : s.sp.val = 0 then none
  else some (s.stack[s.sp.val - 1], { s with sp := ⟨s.sp.val - 1, by omega⟩ })

/-! ### The cycle's first steps (40_cycle_and_host.md R60) -/

/-- Fetch: the two bytes at `pc`, high byte first, or `none` when the second does not exist (R61). -/
def State.fetch (s : State) : Option Word :=
  if inBounds s.pc.toNat 2 then
    some (wordOfBytes (s.mem.read s.pc.toNat) (s.mem.read (s.pc.toNat + 1)))
  else none

/-- A timer down by one, floor at zero (R62). -/
def countDown (t : Byte) : Byte := if t = 0 then 0 else t - 1

/-- The timer tick: both timers, once (R62). -/
def State.tick (s : State) : State := { s with dt := countDown s.dt, st := countDown s.st }

/-- An instruction word placed where the next cycle fetches it, high byte first. Where no cycle could fetch, the latch
is cleared and `pc` is put at the program base first: nothing else changes. -/
def State.placeWord (s : State) (w : Word) : State :=
  let a := if inBounds s.pc.toNat 2 then s.pc.toNat else programBase
  { s with
    pc := BitVec.ofNat 16 a
    fault := none
    mem := (s.mem.write a (highByte w)).write (a + 1) (lowByte w) }

end Sys2Proof.Machine
end

