-- ==== Sys2Proof/Machine/Flags.lean ====
section
/-! DEFINITION. Flag computations: the values written to `VF` (10_state.md R11), from operands read before any write. -/

namespace Sys2Proof.Machine

/-- A flag as the 8-bit value written to `VF`, 1 or 0. -/
def flagByte (f : Bool) : Byte := if f then 1 else 0

/-- `ADD Vx,Vy`: the true sum exceeds 255 (42_register_alu.md R107). -/
def carryOut (a b : Byte) : Bool := decide (a.toNat + b.toNat > 255)

/-- `SUB`, `SUBN`: minuend greater than subtrahend, strictly (42_register_alu.md R108, R110, C8). -/
def notBorrow (minuend subtrahend : Byte) : Bool := decide (minuend.toNat > subtrahend.toNat)

/-- `SHR`: the bit shifted out, bit 0 (42_register_alu.md R109). -/
def lowBit (a : Byte) : Bool := a.getLsbD 0

/-- `SHL`: the bit shifted out, bit 7 (42_register_alu.md R111). -/
def highBit (a : Byte) : Bool := a.getLsbD 7

/-- The write order of a flag-writing instruction: the result to `v[x]`, then the flag to `v[15]`, so with `x = 15` the
flag remains (42_register_alu.md R100). -/
def State.setRegAndFlag (s : State) (x : Nibble) (result : Byte) (flag : Bool) : State :=
  (s.setReg x result).setReg vf (flagByte flag)

end Sys2Proof.Machine
end

