-- ==== Sys2Proof/Config.lean ====
section
/-! DEFINITION. What the spec leaves to the environment: free values, each an opaque constant of which nothing can be proved. -/

namespace Sys2Proof

/-- The entropy provider (40_cycle_and_host.md R74, D14): the byte it supplies to the `k`-th `RND`, when the host has
not fixed it. Any byte; no distribution, independence or period (log 2). -/
opaque Config.entropy : Nat → Byte

/-- `KEYSEL` (45_keypad_timers.md R143, D12): which of several pressed keys `LD Vx,K` takes, as a free number that the
machine reduces to a member of the pressed set (log 3). The argument is the keypad register. -/
opaque Config.keyChoice : Word → Nat

end Sys2Proof
end

