-- ==== Sys2Proof/Machine/Operands.lean ====
section
/-! DEFINITION. Operand forms: literals, the sprite and decimal digits, the keypad and the entropy input. -/

namespace Sys2Proof.Machine

/-- `zext_16(nnn)` (30_encoding.md R48). -/
def zextNnn (nnn : Addr12) : Word := nnn.setWidth 16

/-- `zext_16(v[x])` (30_encoding.md R48). -/
def zextByte (b : Byte) : Word := b.setWidth 16

/-- The decimal digits of a byte, hundreds, tens, ones (43_index_memory.md R124). -/
def decimalDigits (a : Byte) : List Byte := [a / 100, a / 10 % 10, a % 10]

/-! ### The keypad (45_keypad_timers.md) -/

/-- `key[k]` (R140). -/
def State.keyPressed (s : State) (k : Nibble) : Bool := s.key.getLsbD k.toNat

/-- A register value as a key index, `none` above 15: it is not masked (R141). -/
def keyIndex (b : Byte) : Option Nibble :=
  if b.toNat ≤ 15 then some (b.setWidth 4) else none

/-- The pressed keys `{ k | key[k] = 1 }`, ascending (R143). -/
def pressedKeys (key : Word) : List Nibble :=
  ((List.range 16).filter fun k => key.getLsbD k).map (BitVec.ofNat 4)

/-- `KEYSEL`: a pressed key, or `none` when none is pressed. When several are pressed the choice among them is free
(R143, D12; log 3). -/
def keySelect (key : Word) : Option Nibble :=
  match pressedKeys key with
  | [] => none
  | [k] => some k
  | k :: l :: ks => some ((k :: l :: ks).getD (Config.keyChoice key % (ks.length + 2)) k)

/-! ### The entropy input (40_cycle_and_host.md R74) -/

/-- The byte the next `RND` consumes: the host's oldest unconsumed byte, else a free value (log 2). -/
def State.entropyByte (s : State) : Byte :=
  match s.entropy with
  | b :: _ => b
  | [] => Config.entropy s.draws

/-- One entropy byte consumed. -/
def State.consumeEntropy (s : State) : State :=
  { s with entropy := s.entropy.tail, draws := s.draws + 1 }

end Sys2Proof.Machine
end

