-- ==== Sys2Proof/Machine/Alu.lean ====
section
/-! DEFINITION. Register load, arithmetic, logic, shift and random instructions (42_register_alu.md). -/

namespace Sys2Proof.Machine

/-- The shape of the instructions without a flag: write `v[x]`, then `Next`. -/
def writeReg (x : Nibble) (result : Byte) (s : State) : Result := finish .next (s.setReg x result)

/-- The shape of the instructions with a flag: write `v[x]`, then `VF`, then `Next` (R100). -/
def writeRegFlag (x : Nibble) (result : Byte) (flag : Bool) (s : State) : Result :=
  finish .next (s.setRegAndFlag x result flag)

/-- `LD Vx,kk` (R101). -/
def execLdImm (x : Nibble) (kk : Byte) (s : State) : Result := writeReg x kk s

/-- `ADD Vx,kk` (R102): wraps, no flag. -/
def execAddImm (x : Nibble) (kk : Byte) (s : State) : Result := writeReg x (s.reg x + kk) s

/-- `LD Vx,Vy` (R103). -/
def execLdReg (x y : Nibble) (s : State) : Result := writeReg x (s.reg y) s

/-- `OR Vx,Vy` (R104): no flag. -/
def execOr (x y : Nibble) (s : State) : Result := writeReg x (s.reg x ||| s.reg y) s

/-- `AND Vx,Vy` (R105): no flag. -/
def execAnd (x y : Nibble) (s : State) : Result := writeReg x (s.reg x &&& s.reg y) s

/-- `XOR Vx,Vy` (R106): no flag. -/
def execXor (x y : Nibble) (s : State) : Result := writeReg x (s.reg x ^^^ s.reg y) s

/-- `ADD Vx,Vy` (R107). -/
def execAddReg (x y : Nibble) (s : State) : Result :=
  writeRegFlag x (s.reg x + s.reg y) (carryOut (s.reg x) (s.reg y)) s

/-- `SUB Vx,Vy` (R108). -/
def execSub (x y : Nibble) (s : State) : Result :=
  writeRegFlag x (s.reg x - s.reg y) (notBorrow (s.reg x) (s.reg y)) s

/-- `SHR Vx` (R109): the `y` digit is ignored. -/
def execShr (x _y : Nibble) (s : State) : Result :=
  writeRegFlag x (s.reg x >>> 1) (lowBit (s.reg x)) s

/-- `SUBN Vx,Vy` (R110, C3): `SUB` with the two operands exchanged. -/
def execSubn (x y : Nibble) (s : State) : Result :=
  writeRegFlag x (s.reg y - s.reg x) (notBorrow (s.reg y) (s.reg x)) s

/-- `SHL Vx` (R111): the `y` digit is ignored. -/
def execShl (x _y : Nibble) (s : State) : Result :=
  writeRegFlag x (s.reg x <<< 1) (highBit (s.reg x)) s

/-- `RND Vx,kk` (R112): one entropy byte is consumed. -/
def execRnd (x : Nibble) (kk : Byte) (s : State) : Result :=
  writeReg x (s.entropyByte &&& kk) s.consumeEntropy

end Sys2Proof.Machine
end

