-- ==== Sys2Proof/Machine/ControlFlow.lean ====
section
/-! DEFINITION. Control flow instructions and the unrecognized-word default (41_control_flow.md). -/

namespace Sys2Proof.Machine

/-- `JP nnn` (R81). -/
def execJp (nnn : Addr12) (s : State) : Result := finish (.jump (zextNnn nnn)) s

/-- `CALL nnn` (R82): `pc + 2` is pushed, `pc` being the address of this `CALL`. -/
def execCall (nnn : Addr12) (s : State) : Result :=
  match s.push (s.pc + 2) with
  | some t => finish (.jump (zextNnn nnn)) t
  | none => raise .stackOverflow s

/-- `RET` (R83). -/
def execRet (s : State) : Result :=
  match s.pop with
  | some (a, t) => finish (.jump a) t
  | none => raise .stackUnderflow s

/-- `JP V0,nnn` (R84): the sum in 16 bits, not masked to 12. -/
def execJpV0 (nnn : Addr12) (s : State) : Result :=
  finish (.jump (zextByte (s.reg 0) + zextNnn nnn)) s

/-- `SE Vx,kk` (R85). -/
def execSeImm (x : Nibble) (kk : Byte) (s : State) : Result := finish (skipIf (s.reg x == kk)) s

/-- `SNE Vx,kk` (R86). -/
def execSneImm (x : Nibble) (kk : Byte) (s : State) : Result := finish (skipIf (s.reg x != kk)) s

/-- `SE Vx,Vy` (R87). -/
def execSeReg (x y : Nibble) (s : State) : Result := finish (skipIf (s.reg x == s.reg y)) s

/-- `SNE Vx,Vy` (R88). -/
def execSneReg (x y : Nibble) (s : State) : Result := finish (skipIf (s.reg x != s.reg y)) s

/-- The default for an unrecognized word (R89): advance by 2 and do nothing. -/
def execNop (_word : Word) (s : State) : Result := finish .next s

end Sys2Proof.Machine
end

