-- ==== Sys2Proof/Machine/Display.lean ====
section
/-! DEFINITION. The framebuffer, the sprite XOR blit with collision, `CLS` and `DRW` (44_display.md). -/

namespace Sys2Proof.Machine

/-- `fb_get(col, row)` (R130). -/
def Framebuffer.get (fb : Framebuffer) (row : Fin 32) (col : Fin 64) : Bool := fb[row.val][col.val]

/-- `fb_set(col, row, b)` (R130). -/
def Framebuffer.put (fb : Framebuffer) (row : Fin 32) (col : Fin 64) (b : Bool) : Framebuffer :=
  fb.set row.val (fb[row.val].set col.val b)

/-- `fb_clear()` (R130): every cell off. -/
def Framebuffer.blank : Framebuffer := Vector.replicate 32 (Vector.replicate 64 false)

/-- A row coordinate reduced `mod 32` (R132). -/
def wrapRow (n : Nat) : Fin 32 := ⟨n % 32, by omega⟩

/-- A column coordinate reduced `mod 64` (R132). -/
def wrapCol (n : Nat) : Fin 64 := ⟨n % 64, by omega⟩

/-- The framebuffer and the collision so far. -/
abbrev Blit := Framebuffer × Bool

/-- One sprite bit at sprite column `c` (R132): a bit of 1 flips its cell, and collides if the cell was on; a bit of 0
leaves the cell alone. Column `c` is bit `7 - c` (R131). -/
def blitBit (x0 row : Nat) (byte : Byte) (acc : Blit) (c : Nat) : Blit :=
  if byte.getLsbD (7 - c) then
    let cur := acc.1.get (wrapRow row) (wrapCol (x0 + c))
    (acc.1.put (wrapRow row) (wrapCol (x0 + c)) (!cur), acc.2 || cur)
  else acc

/-- One sprite row: its eight columns, most significant bit first (R131). -/
def blitRow (x0 row : Nat) (byte : Byte) (acc : Blit) : Blit :=
  [0, 1, 2, 3, 4, 5, 6, 7].foldl (blitBit x0 row byte) acc

/-- `fb_draw(x0, y0, bytes)` (R132): the sprite's rows in order, the first at row `y0`. -/
def blit (x0 : Nat) : Nat → List Byte → Blit → Blit
  | _, [], acc => acc
  | y0, byte :: bytes, acc => blit x0 (y0 + 1) bytes (blitRow x0 y0 byte acc)

/-- `CLS` (R133): no flag. -/
def execCls (s : State) : Result := finish .next { s with fb := Framebuffer.blank }

/-- What `DRW` does once its range is checked: the coordinates are read before any write (42_register_alu.md R100), the
blit runs, `VF` receives the collision. -/
def drawSprite (x y : Nibble) (bytes : List Byte) (s : State) : State :=
  let drawn := blit (s.reg x).toNat (s.reg y).toNat bytes (s.fb, false)
  State.setReg { s with fb := drawn.1 } vf (flagByte drawn.2)

/-- `DRW Vx,Vy,n` (R134): `n` bytes at `i`; with `n = 0` nothing is read or drawn and `VF` is 0. -/
def execDrw (x y n : Nibble) (s : State) : Result :=
  withRange n.toNat s
    (finish .next (drawSprite x y (s.mem.readBytes s.i.toNat n.toNat) s))

end Sys2Proof.Machine
end

