-- ==== Sys2Proof/Machine/IndexMemory.lean ====
section
/-! DEFINITION. Index register, decimal and block load and store instructions (43_index_memory.md). -/

namespace Sys2Proof.Machine

/-- The shape of the instructions that write `i`. -/
def writeIndex (a : Word) (s : State) : Result := finish .next { s with i := a }

/-- The shape of the instructions that store bytes at `i`: the whole range is checked first (R127); `i` stays (R120). -/
def storeAtI (bytes : List Byte) (s : State) : Result :=
  withRange bytes.length s
    (finish .next { s with mem := s.mem.writeBytes s.i.toNat bytes })

/-- `LD I,nnn` (R121). -/
def execLdI (nnn : Addr12) (s : State) : Result := writeIndex (zextNnn nnn) s

/-- `ADD I,Vx` (R122): 16 bits, no mask, no flag. -/
def execAddI (x : Nibble) (s : State) : Result := writeIndex (s.i + zextByte (s.reg x)) s

/-- `LD F,Vx` (R123, C4): the whole byte times 5. -/
def execLdF (x : Nibble) (s : State) : Result := writeIndex (zextByte (s.reg x) * 5) s

/-- `LD B,Vx` (R124). -/
def execLdB (x : Nibble) (s : State) : Result := storeAtI (decimalDigits (s.reg x)) s

/-- `LD [I],Vx` (R125): `v[0] .. v[x]`, inclusive. -/
def execStoreRegs (x : Nibble) (s : State) : Result := storeAtI (s.regsBelow (x.toNat + 1)) s

/-- `LD Vx,[I]` (R126): `v[0] .. v[x]`, inclusive. -/
def execLoadRegs (x : Nibble) (s : State) : Result :=
  withRange (x.toNat + 1) s
    (finish .next (s.setRegsFrom 0 (s.mem.readBytes s.i.toNat (x.toNat + 1))))

end Sys2Proof.Machine
end

