-- ==== Sys2Proof/Machine/KeypadTimers.lean ====
section
/-! DEFINITION. Keypad and timer instructions (45_keypad_timers.md). All run after the cycle's timer tick. -/

namespace Sys2Proof.Machine

/-- The shape of `SKP` and `SKNP`: skip when key `v[x]` is at the wanted level; a value above 15 is no key. -/
def skipOnKey (wanted : Bool) (x : Nibble) (s : State) : Result :=
  match keyIndex (s.reg x) with
  | some k => finish (skipIf (s.keyPressed k == wanted)) s
  | none => raise .keyIndexOutOfRange s

/-- `SKP Vx` (R141). -/
def execSkp (x : Nibble) (s : State) : Result := skipOnKey true x s

/-- `SKNP Vx` (R142). -/
def execSknp (x : Nibble) (s : State) : Result := skipOnKey false x s

/-- `LD Vx,K` (R143): with no key pressed `pc` stays and the instruction is fetched again; else `v[x]` receives the
index of a pressed key. -/
def execLdVxK (x : Nibble) (s : State) : Result :=
  match keySelect s.key with
  | some k => finish .next (s.setReg x (k.setWidth 8))
  | none => finish .stay s

/-- `LD Vx,DT` (R144). -/
def execLdVxDT (x : Nibble) (s : State) : Result := finish .next (s.setReg x s.dt)

/-- `LD DT,Vx` (R145). -/
def execLdDTVx (x : Nibble) (s : State) : Result := finish .next { s with dt := s.reg x }

/-- `LD ST,Vx` (R146). -/
def execLdSTVx (x : Nibble) (s : State) : Result := finish .next { s with st := s.reg x }

end Sys2Proof.Machine
end

