-- ==== Sys2Proof/Machine/Step.lean ====
section
/-! DEFINITION. One cycle (40_cycle_and_host.md R60): latch check, fetch, decode, timer tick, execute and directive. -/

namespace Sys2Proof.Machine

/-- One `run_cycle` as a step of the state. A latched fault stops the machine with its cause (R67, log 4). A failed
fetch raises before the tick (R61); every other cycle ticks both timers and then executes one instruction (R62, R63). -/
def step (s : State) : Host.Outcome State Fault Refusal :=
  match s.fault with
  | some f => .fault f
  | none =>
    match s.fetch with
    | none => raise .memOutOfBounds s
    | some w => exec (decodeWord w) s.tick

/-- `s` with the instruction word numbered as spec/opcode_table.json numbers it placed at `pc`, so that the next
step fetches and runs it. -/
def State.withFetchWord (s : State) (nbits w : Nat) : State := s.placeWord (tableWord nbits w)

end Sys2Proof.Machine
end

