-- ==== Sys2Proof/Machine/HostInterface.lean ====
section
/-! DEFINITION. The six host operations (40_cycle_and_host.md R68 to R76), each one atomic change of the state. -/

namespace Sys2Proof.Machine

/-- `construct()` (R68). -/
def construct : State := State.reset

/-- `reset()` (R69, 70_reset_and_hazards.md R180): every cell of the machine to its reset value. The entropy input
belongs to the host and is no cell of the machine (10_state.md R23), so it goes on (log 2). -/
def hostReset (s : State) : State :=
  { State.reset with entropy := s.entropy, draws := s.draws }

/-- What `load` returns (R70). -/
inductive LoadResult where
  | ok
  /-- The image does not fit (60_exceptions.md R162). Returned, not latched. -/
  | programLoadOverflow
  deriving DecidableEq, Repr

/-- `load(bytes)` (R70): refused whole when the image does not fit, else copied to 0x200 and nothing else (D16). -/
def hostLoad (bytes : List Byte) (s : State) : State × LoadResult :=
  if programBase + bytes.length > memSize then (s, .programLoadOverflow)
  else ({ s with mem := s.mem.writeBytes programBase bytes }, .ok)

/-- `key_down(k)` (R71). -/
def hostKeyDown (k : Nibble) (s : State) : State := { s with key := s.key ||| BitVec.twoPow 16 k.toNat }

/-- `key_up(k)` (R72). -/
def hostKeyUp (k : Nibble) (s : State) : State := { s with key := s.key &&& ~~~(BitVec.twoPow 16 k.toNat) }

/-- The snapshot: the 2048 cells in row-major order (R65). -/
def snapshot (fb : Framebuffer) : List Bool := fb.toList.flatMap Vector.toList

/-- The beep flag: `st > 0` (R65). -/
def beep (s : State) : Bool := s.st != 0

/-- What `run_cycle` returns (R65, R67). -/
inductive CycleResult where
  /-- `Ok(snapshot, beep)`. -/
  | ok (cells : List Bool) (beep : Bool)
  /-- `Failure(cause, info)`. The info is not latched: a repeated failure carries none (60_exceptions.md R160, log 12). -/
  | failure (cause : Fault) (info : Option Nat)
  /-- Never returned: no step refuses. -/
  | refused (r : Refusal)
  deriving DecidableEq, Repr

/-- The five failure causes a host can be answered (60_exceptions.md R160): the four a cycle latches, and the one `load`
returns. -/
inductive FailureCause where
  | latched (f : Fault)
  | programLoadOverflow
  deriving DecidableEq, Repr

/-- The numeric codes of the causes (60_exceptions.md R160, D9). -/
def failureCode : FailureCause → Nat
  | .latched .stackOverflow => 1
  | .latched .stackUnderflow => 2
  | .latched .memOutOfBounds => 3
  | .latched .keyIndexOutOfRange => 4
  | .programLoadOverflow => 5

/-- The cause a `load` failed with, if it did (60_exceptions.md R162). -/
def loadCause : LoadResult → Option FailureCause
  | .ok => none
  | .programLoadOverflow => some .programLoadOverflow

/-- The cause a `run_cycle` failed with, if it did (60_exceptions.md R163). -/
def cycleCause : CycleResult → Option FailureCause
  | .ok _ _ => none
  | .failure f _ => some (.latched f)
  | .refused _ => none

/-- The info a raising cycle returns, from the state it began in (60_exceptions.md R160): `pc` for the stack faults and
a fetch, `i` for a data access, `v[x]` for a key index. -/
def failureInfo (s : State) : Fault → Nat
  | .stackOverflow => s.pc.toNat
  | .stackUnderflow => s.pc.toNat
  | .memOutOfBounds => if s.fetch.isNone then s.pc.toNat else s.i.toNat
  | .keyIndexOutOfRange => (s.fetch.elim 0 fun w => s.reg (fieldX w)).toNat

/-- `run_cycle(rnd)` (R60): a step whose entropy byte is `rnd`, and what it returns. The outputs are those of the state
at the end of the cycle (R65, D13). In the faulted state nothing changes and the same cause returns (R67). -/
def runCycle (rnd : Byte) (s : State) : State × CycleResult :=
  match step { s with entropy := [rnd] } with
  | .next t =>
    ({ t with entropy := s.entropy },
      match t.fault with
      | none => .ok (snapshot t.fb) (beep t)
      | some f => .failure f (some (failureInfo s f)))
  | .fault f => (s, .failure f none)
  | .refused r => (s, .refused r)

/-- A host operation with its arguments (R76). -/
inductive HostOp where
  | construct
  | reset
  | load (bytes : List Byte)
  | keyDown (k : Nibble)
  | keyUp (k : Nibble)
  | runCycle (rnd : Byte)
  deriving DecidableEq, Repr

/-- The state after a host operation: the operations are serial, one at a time (R73). `construct` and `reset` leave the
same state (D24); the host's entropy input goes on through both (log 2). -/
def perform (s : State) : HostOp → State
  | .construct => hostReset s
  | .reset => hostReset s
  | .load bytes => (hostLoad bytes s).1
  | .keyDown k => hostKeyDown k s
  | .keyUp k => hostKeyUp k s
  | .runCycle rnd => (runCycle rnd s).1

end Sys2Proof.Machine
end

