-- ==== Sys2Proof/Safety.lean ====
section
/-! DEFINITION. The terms claims use: the invariant, what an instruction may write, when it faults, what a sprite covers. -/

namespace Sys2Proof.Machine

/-- The invariant of 10_state.md R26, with the memory's canonical form: `pc` at most 0x10FE and every stack entry at
most 0x1000. The bounds of the other registers are their types'. -/
abbrev State.Inv (s : State) : Prop :=
  s.mem.wf = true ∧ s.pc.toNat ≤ 0x10FE ∧ ∀ k : Fin 16, s.stack[k].toNat ≤ 0x1000

/-- A state that can run: no fault is latched (60_exceptions.md R164). -/
abbrev State.Safe (s : State) : Prop := s.fault = none

/-- What an instruction may write, apart from `pc`: the columns "Written by" of 10_state.md R24. -/
structure Writes where
  /-- The general registers it may write. -/
  regs : List Nibble := []
  index : Bool := false
  stack : Bool := false
  dt : Bool := false
  st : Bool := false
  /-- The addresses it may store to. -/
  mem : List Nat := []
  fb : Bool := false
  fault : Bool := false
  /-- The entropy input may advance. -/
  entropy : Bool := false
  deriving DecidableEq, Repr

/-- From `s` to `t` nothing changed but what `w` allows, and `pc`. No instruction may write the keypad. -/
structure Unchanged (w : Writes) (s t : State) : Prop where
  regs : ∀ r, r ∉ w.regs → t.reg r = s.reg r
  index : w.index = false → t.i = s.i
  stack : w.stack = false → t.stack = s.stack ∧ t.sp = s.sp
  dt : w.dt = false → t.dt = s.dt
  st : w.st = false → t.st = s.st
  mem : ∀ a, a ∉ w.mem → t.mem.read a = s.mem.read a
  fb : w.fb = false → t.fb = s.fb
  key : t.key = s.key
  fault : w.fault = false → t.fault = s.fault
  entropy : w.entropy = false → t.entropy = s.entropy ∧ t.draws = s.draws

/-- The `len` addresses from `a`. -/
def addresses (a len : Nat) : List Nat := (List.range len).map (a + ·)

/-- The registers `v[0] .. v[x]`. -/
def regsUpTo (x : Nibble) : List Nibble := (List.range (x.toNat + 1)).map (BitVec.ofNat 4)

/-- What each instruction may write (10_state.md R11, R24; 60_exceptions.md R160 for the latch). -/
def writes (s : State) : Instr → Writes
  | .cls => { fb := true }
  | .ret => { stack := true, fault := true }
  | .jp _ => {}
  | .call _ => { stack := true, fault := true }
  | .seImm _ _ => {}
  | .sneImm _ _ => {}
  | .seReg _ _ => {}
  | .ldImm x _ => { regs := [x] }
  | .addImm x _ => { regs := [x] }
  | .ldReg x _ => { regs := [x] }
  | .orReg x _ => { regs := [x] }
  | .andReg x _ => { regs := [x] }
  | .xorReg x _ => { regs := [x] }
  | .addReg x _ => { regs := [x, vf] }
  | .subReg x _ => { regs := [x, vf] }
  | .shr x _ => { regs := [x, vf] }
  | .subnReg x _ => { regs := [x, vf] }
  | .shl x _ => { regs := [x, vf] }
  | .sneReg _ _ => {}
  | .ldI _ => { index := true }
  | .jpV0 _ => {}
  | .rnd x _ => { regs := [x], entropy := true }
  | .drw _ _ _ => { regs := [vf], fb := true, fault := true }
  | .skp _ => { fault := true }
  | .sknp _ => { fault := true }
  | .ldVxDT x => { regs := [x] }
  | .ldVxK x => { regs := [x] }
  | .ldDTVx _ => { dt := true }
  | .ldSTVx _ => { st := true }
  | .addI _ => { index := true }
  | .ldF _ => { index := true }
  | .ldB _ => { mem := addresses s.i.toNat 3, fault := true }
  | .storeRegs x => { mem := addresses s.i.toNat (x.toNat + 1), fault := true }
  | .loadRegs x => { regs := regsUpTo x, fault := true }
  | .nop _ => {}

/-- The instruction answers a next state in which `pc` is as given, only what `w` allows changed, and `P` holds. -/
def Completes (i : Instr) (s : State) (w : Writes) (pc : Word) (P : State → Prop) : Prop :=
  ∃ t, exec i s = .next t ∧ t.pc = pc ∧ Unchanged w s t ∧ P t

/-- The instruction raises `f`: the next state differs in the latch alone (60_exceptions.md R163, R165). -/
def Raises (i : Instr) (s : State) (f : Fault) : Prop := exec i s = .next { s with fault := some f }

/-- When an instruction raises which fault: the rows of 60_exceptions.md R160 that an instruction raises. -/
def faultCondition (s : State) : Instr → Fault → Prop
  | .call _, .stackOverflow => s.sp.val = 16
  | .ret, .stackUnderflow => s.sp.val = 0
  | .drw _ _ n, .memOutOfBounds => 1 ≤ n.toNat ∧ s.i.toNat + n.toNat - 1 > 0xFFF
  | .ldB _, .memOutOfBounds => s.i.toNat + 2 > 0xFFF
  | .storeRegs x, .memOutOfBounds => s.i.toNat + x.toNat > 0xFFF
  | .loadRegs x, .memOutOfBounds => s.i.toNat + x.toNat > 0xFFF
  | .skp x, .keyIndexOutOfRange => (s.reg x).toNat > 15
  | .sknp x, .keyIndexOutOfRange => (s.reg x).toNat > 15
  | _, _ => False

/-- Whether the sprite drawn at `(x0, y0)` has a 1 bit over the cell `(row, col)` (44_display.md R131, R136), from the
cell's distance to the sprite's corner around the torus. -/
def spriteCovers (x0 y0 : Nat) (bytes : List Byte) (row : Fin 32) (col : Fin 64) : Bool :=
  let r := (row.val + 32 - y0 % 32) % 32
  let c := (col.val + 64 - x0 % 64) % 64
  decide (r < bytes.length) && decide (c < 8) && (bytes.getD r 0).getLsbD (7 - c)

/-- Every cell of the machine at its reset value (10_state.md R24, 70_reset_and_hazards.md R180). -/
structure State.AtReset (s : State) : Prop where
  regs : ∀ r, s.reg r = 0
  index : s.i = 0
  pc : s.pc = 0x200
  sp : s.sp.val = 0
  stack : ∀ k : Fin 16, s.stack[k] = 0
  dt : s.dt = 0
  st : s.st = 0
  font : ∀ a, a ≤ 0x04F → s.mem.read a = Sys2Proof.Machine.font.getD a 0
  zeros : ∀ a, 0x050 ≤ a → a ≤ 0xFFF → s.mem.read a = 0
  fb : ∀ row col, s.fb.get row col = false
  key : s.key = 0
  fault : s.fault = none

/-- The suggested end-of-run predicate `HALTED` (92_eei_decisions.md D23): the word at `pc` is a `JP` to `pc`, and no fault
is latched, since a faulted state is never a final state of a run (60_exceptions.md R164). -/
def State.Halted (s : State) : Prop :=
  s.fault = none ∧ ∃ w nnn, s.fetch = some w ∧ decodeWord w = .jp nnn ∧ nnn.toNat = s.pc.toNat

end Sys2Proof.Machine
end

