-- ==== Sys2Proof/Certificates/Slice0/Obligations.lean ====
section
/-! DEFINITION. The statements for the provers, from the numbered rules of spec/. -/

open Sys2Proof Sys2Proof.Machine

/-! ### Encoding (30_encoding.md) -/

/-- R54, R46, R50 (D1, D2): decoding the two bytes of a well-formed instruction gives it back, every field included,
and leaves the bytes that follow. -/
def Obligations.DecodeOfEncode : Prop :=
  ∀ (i : Instr) (rest : List Byte), wellFormed i = true → decode (encode i ++ rest) = .instr i rest

/-- R49, R54: every word decodes to a well-formed instruction, and encoding that instruction gives the word back. -/
def Obligations.EncodeOfDecode : Prop :=
  ∀ w : Word, wellFormed (decodeWord w) = true ∧ encodeWord (decodeWord w) = w

/-- R49, R50: the 34 patterns are pairwise disjoint: no word matches two of them. -/
def Obligations.OpcodePatternsAreDisjoint : Prop :=
  opcodeRows.length = 34 ∧
    opcodeRows.Pairwise fun p q =>
      ∀ w, ¬ (patternMatches p.pattern w = true ∧ patternMatches q.pattern w = true)

/-- R52 (D2): the unrecognized words are exactly the listed groups. -/
def Obligations.UnrecognizedWordsAreTheListedGroups : Prop :=
  ∀ w : Word, decodeWord w = .nop w ↔
    (fieldOp w = 0x0 ∧ w ≠ 0x00E0 ∧ w ≠ 0x00EE) ∨
    (fieldOp w = 0x5 ∧ fieldN w ≠ 0) ∨
    (fieldOp w = 0x8 ∧ fieldN w ∈ [0x8, 0x9, 0xA, 0xB, 0xC, 0xD, 0xF]) ∨
    (fieldOp w = 0x9 ∧ fieldN w ≠ 0) ∨
    (fieldOp w = 0xE ∧ fieldKk w ∉ [0x9E, 0xA1]) ∨
    (fieldOp w = 0xF ∧ fieldKk w ∉ [0x07, 0x0A, 0x15, 0x18, 0x1E, 0x29, 0x33, 0x55, 0x65])

/-- R50 on words of the spec's own vectors (T3, T6, A1, A16, M1, M15, G2, K1, K8, T17): each decodes to the instruction
the vector names. -/
def Obligations.DocumentedWordsDecode : Prop :=
  decodeWord 0x2ABC = .call 0xABC ∧ decodeWord 0x00EE = .ret ∧ decodeWord 0x6005 = .ldImm 0 0x05 ∧
  decodeWord 0x8015 = .subReg 0 1 ∧ decodeWord 0xA230 = .ldI 0x230 ∧ decodeWord 0xF255 = .storeRegs 2 ∧
  decodeWord 0xD011 = .drw 0 1 1 ∧ decodeWord 0xE09E = .skp 0 ∧ decodeWord 0xF30A = .ldVxK 3 ∧
  decodeWord 0x5121 = .nop 0x5121

/-! ### The cycle (40_cycle_and_host.md) -/

/-- R60, R61, R62: when no fault is latched and the bytes at `pc` decode to an instruction, the step is that
instruction's execution in the state whose two timers have ticked and which is otherwise the same. -/
def Obligations.StepRunsTheDecodedInstruction : Prop :=
  ∀ (s : State) (i : Instr) (rest : List Byte), s.fault = none → s.pc.toNat ≤ 0xFFE →
    decode [s.mem.read s.pc.toNat, s.mem.read (s.pc.toNat + 1)] = .instr i rest →
    ∃ u, step s = exec i u ∧ u.dt.toNat = s.dt.toNat - 1 ∧ u.st.toNat = s.st.toNat - 1 ∧
      u = { s with dt := u.dt, st := u.st }

/-- R61 (D5, D8): a fetch with `pc >= 0xFFF` latches `MemOutOfBounds` before anything else: no tick, no other change. -/
def Obligations.FetchBeyondMemoryLatches : Prop :=
  ∀ s : State, s.fault = none → 0xFFF ≤ s.pc.toNat →
    step s = .next { s with fault := some .memOutOfBounds }

/-- R67, R164 (D7): with a fault latched the step answers that fault, `run_cycle` changes no state and returns the
failure with the same cause, and the state is no end of a run, whatever stands at `pc`. That the step answers a fault
rather than an unchanged next state is the model's choice among the two R67 allows (log 4). -/
def Obligations.LatchedFaultStopsTheMachine : Prop :=
  ∀ (s : State) (f : Fault) (rnd : Byte), s.fault = some f →
    step s = .fault f ∧ runCycle rnd s = (s, .failure f none) ∧ ¬ s.Halted

/-- R62: in every cycle that passes fetch, whatever the instruction and whether or not it faults, both timers tick
before its effect: afterwards each holds one less, floor zero, unless the instruction wrote it (then the value written
exactly), and `LD Vx,DT` has read the decremented value. (That a cycle that fails fetch does not tick, D8:
FetchBeyondMemoryLatches.) -/
def Obligations.TimersTickOncePerCycle : Prop :=
  ∀ (s t : State) (w : Word), s.fault = none → s.fetch = some w → step s = .next t →
    match decodeWord w with
    | .ldDTVx x => t.dt = s.reg x ∧ t.st.toNat = s.st.toNat - 1
    | .ldSTVx x => t.st = s.reg x ∧ t.dt.toNat = s.dt.toNat - 1
    | .ldVxDT x => (t.reg x).toNat = s.dt.toNat - 1 ∧ t.dt.toNat = s.dt.toNat - 1 ∧ t.st.toNat = s.st.toNat - 1
    | _ => t.dt.toNat = s.dt.toNat - 1 ∧ t.st.toNat = s.st.toNat - 1

/-! ### Control flow (41_control_flow.md) -/

/-- R81, R84: `JP` sets `pc` to `nnn`, `JP V0` to `v[0] + nnn` with no reduction; nothing else changes. -/
def Obligations.JumpsSetPc : Prop :=
  (∀ (nnn : Addr12) (s : State),
    Completes (.jp nnn) s {} (BitVec.ofNat 16 nnn.toNat) fun t => t.pc.toNat = nnn.toNat) ∧
  ∀ (nnn : Addr12) (s : State),
    Completes (.jpV0 nnn) s {} (BitVec.ofNat 16 ((s.reg 0).toNat + nnn.toNat)) fun t =>
      t.pc.toNat = (s.reg 0).toNat + nnn.toNat

/-- R82: below capacity `CALL` writes `pc + 2` at `stack[sp]`, raises `sp`, jumps to `nnn`; at `sp = 16` it raises
`StackOverflow` with nothing written. -/
def Obligations.CallPushesOrOverflows : Prop :=
  (∀ (nnn : Addr12) (s : State), s.sp.val < 16 →
    Completes (.call nnn) s { stack := true } (BitVec.ofNat 16 nnn.toNat) fun t =>
      t.sp.val = s.sp.val + 1 ∧
      ∀ k : Fin 16, t.stack[k] = if k.val = s.sp.val then s.pc + 2 else s.stack[k]) ∧
  ∀ (nnn : Addr12) (s : State), s.sp.val = 16 → Raises (.call nnn) s .stackOverflow

/-- R83: above zero `RET` lowers `sp` and jumps to the entry at the new `sp`, which keeps its value; at `sp = 0` it
raises `StackUnderflow` with nothing changed. And the rule's property of a call and its return: after a `CALL`, a `RET`
in any state with the same `sp` and the pushed entry in place (what a balanced callee leaves) returns to the instruction
after the call, with `sp` as before the call. -/
def Obligations.RetPopsOrUnderflows : Prop :=
  (∀ (s : State) (k : Fin 16), s.sp.val = k.val + 1 →
    Completes .ret s { stack := true } s.stack[k] fun t => t.sp.val = k.val ∧ t.stack = s.stack) ∧
  (∀ s : State, s.sp.val = 0 → Raises .ret s .stackUnderflow) ∧
  ∀ (nnn : Addr12) (s : State), s.sp.val < 16 →
    ∃ t, exec (.call nnn) s = .next t ∧
      ∀ u : State, u.sp = t.sp → (∀ k : Fin 16, k.val = s.sp.val → u.stack[k] = t.stack[k]) →
        ∃ r, exec .ret u = .next r ∧ r.pc = s.pc + 2 ∧ r.sp = s.sp

/-- R85, R86, R87, R88: the four comparisons skip exactly the next word when they hold, and write nothing but `pc`. -/
def Obligations.ComparisonsSkipTheNextWord : Prop :=
  (∀ (x : Nibble) (kk : Byte) (s : State),
    Completes (.seImm x kk) s {} (if s.reg x = kk then s.pc + 4 else s.pc + 2) fun _ => True) ∧
  (∀ (x : Nibble) (kk : Byte) (s : State),
    Completes (.sneImm x kk) s {} (if s.reg x ≠ kk then s.pc + 4 else s.pc + 2) fun _ => True) ∧
  (∀ (x y : Nibble) (s : State),
    Completes (.seReg x y) s {} (if s.reg x = s.reg y then s.pc + 4 else s.pc + 2) fun _ => True) ∧
  ∀ (x y : Nibble) (s : State),
    Completes (.sneReg x y) s {} (if s.reg x ≠ s.reg y then s.pc + 4 else s.pc + 2) fun _ => True

/-- R89: an unrecognized word advances `pc` by 2 and does nothing; its cycle still ticks both timers and returns the
outputs. -/
def Obligations.UnrecognizedWordOnlyAdvances : Prop :=
  (∀ (w : Word) (s : State), Completes (.nop w) s {} (s.pc + 2) fun _ => True) ∧
  ∀ (w : Word) (rnd : Byte) (s : State), unrecognized w = true → s.fault = none → s.fetch = some w →
    ∃ t, step s = .next t ∧ t.dt.toNat = s.dt.toNat - 1 ∧ t.st.toNat = s.st.toNat - 1 ∧
      t = { s with pc := s.pc + 2, dt := t.dt, st := t.st } ∧
      runCycle rnd s = (t, .ok (snapshot s.fb) (decide (s.st.toNat - 1 > 0)))

/-! ### Registers (42_register_alu.md) -/

/-- R101, R103: `LD Vx,kk` and `LD Vx,Vy` copy their source into `v[x]`. -/
def Obligations.RegisterLoadsCopy : Prop :=
  (∀ (x : Nibble) (kk : Byte) (s : State),
    Completes (.ldImm x kk) s { regs := [x] } (s.pc + 2) fun t => t.reg x = kk) ∧
  ∀ (x y : Nibble) (s : State),
    Completes (.ldReg x y) s { regs := [x] } (s.pc + 2) fun t => t.reg x = s.reg y

/-- R102: `ADD Vx,kk` wraps modulo 256 and writes no flag. -/
def Obligations.AddImmediateWrapsWithoutFlag : Prop :=
  ∀ (x : Nibble) (kk : Byte) (s : State),
    Completes (.addImm x kk) s { regs := [x] } (s.pc + 2) fun t =>
      (t.reg x).toNat = ((s.reg x).toNat + kk.toNat) % 256

/-- R104, R105, R106: `OR`, `AND` and `XOR` combine the registers bit by bit and write no flag. -/
def Obligations.LogicCombinesBitwise : Prop :=
  (∀ (x y : Nibble) (s : State),
    Completes (.orReg x y) s { regs := [x] } (s.pc + 2) fun t =>
      ∀ k < 8, (t.reg x).getLsbD k = ((s.reg x).getLsbD k || (s.reg y).getLsbD k)) ∧
  (∀ (x y : Nibble) (s : State),
    Completes (.andReg x y) s { regs := [x] } (s.pc + 2) fun t =>
      ∀ k < 8, (t.reg x).getLsbD k = ((s.reg x).getLsbD k && (s.reg y).getLsbD k)) ∧
  ∀ (x y : Nibble) (s : State),
    Completes (.xorReg x y) s { regs := [x] } (s.pc + 2) fun t =>
      ∀ k < 8, (t.reg x).getLsbD k = ((s.reg x).getLsbD k ^^ (s.reg y).getLsbD k)

/-- R107: `ADD Vx,Vy` leaves the sum modulo 256 in `v[x]` and the carry in `VF`. That the flag is what remains when
`x = 15` is the spec's own decision D10. -/
def Obligations.AddRegistersSetsCarry : Prop :=
  ∀ (x y : Nibble) (s : State),
    Completes (.addReg x y) s { regs := [x, vf] } (s.pc + 2) fun t =>
      t.reg vf = (if (s.reg x).toNat + (s.reg y).toNat > 255 then 1 else 0) ∧
      (x ≠ vf → (t.reg x).toNat = ((s.reg x).toNat + (s.reg y).toNat) % 256)

/-- R108, R110: `SUB` and `SUBN` leave the difference modulo 256 in `v[x]`, and in `VF` whether the minuend was strictly
the greater (C8). The operand order of `SUBN` is the spec's resolution C3; the flag remaining at `x = 15` is D10. -/
def Obligations.SubtractionsSetNotBorrow : Prop :=
  (∀ (x y : Nibble) (s : State),
    Completes (.subReg x y) s { regs := [x, vf] } (s.pc + 2) fun t =>
      t.reg vf = (if (s.reg x).toNat > (s.reg y).toNat then 1 else 0) ∧
      (x ≠ vf → (t.reg x).toNat = ((s.reg x).toNat + 256 - (s.reg y).toNat) % 256)) ∧
  ∀ (x y : Nibble) (s : State),
    Completes (.subnReg x y) s { regs := [x, vf] } (s.pc + 2) fun t =>
      t.reg vf = (if (s.reg y).toNat > (s.reg x).toNat then 1 else 0) ∧
      (x ≠ vf → (t.reg x).toNat = ((s.reg y).toNat + 256 - (s.reg x).toNat) % 256)

/-- R109, R111: `SHR` halves `v[x]` and `SHL` doubles it modulo 256; `VF` receives the bit shifted out; the `y` digit has
no effect (D2). The flag remaining at `x = 15` is D10. -/
def Obligations.ShiftsMoveOneBitToVF : Prop :=
  (∀ (x y : Nibble) (s : State),
    Completes (.shr x y) s { regs := [x, vf] } (s.pc + 2) fun t =>
      (t.reg vf).toNat = (s.reg x).toNat % 2 ∧ (x ≠ vf → (t.reg x).toNat = (s.reg x).toNat / 2)) ∧
  ∀ (x y : Nibble) (s : State),
    Completes (.shl x y) s { regs := [x, vf] } (s.pc + 2) fun t =>
      (t.reg vf).toNat = (s.reg x).toNat / 128 ∧ (x ≠ vf → (t.reg x).toNat = (s.reg x).toNat * 2 % 256)

/-- R112, R74 (D14): `RND` ands one entropy byte with `kk` and consumes it, once per execution; the byte is the one the
host supplied when there is one, whatever it is. The entropy fields are the model's (log 2). -/
def Obligations.RandomConsumesOneEntropyByte : Prop :=
  (∀ (x : Nibble) (kk : Byte) (s : State),
    Completes (.rnd x kk) s { regs := [x], entropy := true } (s.pc + 2) fun t =>
      t.reg x = s.entropyByte &&& kk ∧ t.entropy = s.entropy.tail ∧ t.draws = s.draws + 1) ∧
  ∀ (x : Nibble) (kk b : Byte) (rest : List Byte) (s : State), s.entropy = b :: rest →
    Completes (.rnd x kk) s { regs := [x], entropy := true } (s.pc + 2) fun t =>
      t.reg x = b &&& kk ∧ t.entropy = rest

/-! ### Index register and memory (43_index_memory.md) -/

/-- R121, R123: `LD I,nnn` sets `i` to `nnn`; `LD F,Vx` sets it to `v[x] * 5`, the whole byte. -/
def Obligations.IndexLoads : Prop :=
  (∀ (nnn : Addr12) (s : State),
    Completes (.ldI nnn) s { index := true } (s.pc + 2) fun t => t.i.toNat = nnn.toNat) ∧
  ∀ (x : Nibble) (s : State),
    Completes (.ldF x) s { index := true } (s.pc + 2) fun t => t.i.toNat = (s.reg x).toNat * 5

/-- R122: `ADD I,Vx` adds in 16 bits without a flag. The wrap modulo 65536 is the spec's own decision D11. -/
def Obligations.AddIndexWrapsAtSixteenBits : Prop :=
  ∀ (x : Nibble) (s : State),
    Completes (.addI x) s { index := true } (s.pc + 2) fun t =>
      t.i.toNat = (s.i.toNat + (s.reg x).toNat) % 65536

/-- R124, R120: in bounds `LD B,Vx` stores the hundreds, tens and ones of `v[x]` at `i`, `i + 1`, `i + 2`; nothing else
changes. (Out of bounds: MemoryRangeFaults.) -/
def Obligations.DecimalDigitsStored : Prop :=
  ∀ (x : Nibble) (s : State), s.i.toNat + 2 ≤ 0xFFF →
    Completes (.ldB x) s { mem := addresses s.i.toNat 3 } (s.pc + 2) fun t =>
      (t.mem.read s.i.toNat).toNat = (s.reg x).toNat / 100 ∧
      (t.mem.read (s.i.toNat + 1)).toNat = (s.reg x).toNat / 10 % 10 ∧
      (t.mem.read (s.i.toNat + 2)).toNat = (s.reg x).toNat % 10

/-- R125, R120: in bounds `LD [I],Vx` stores `v[0] .. v[x]` inclusive at `i ..`; `i` and every other byte stay. -/
def Obligations.RegistersStored : Prop :=
  ∀ (x : Nibble) (s : State), s.i.toNat + x.toNat ≤ 0xFFF →
    Completes (.storeRegs x) s { mem := addresses s.i.toNat (x.toNat + 1) } (s.pc + 2) fun t =>
      ∀ k : Nibble, k.toNat ≤ x.toNat → t.mem.read (s.i.toNat + k.toNat) = s.reg k

/-- R126, R120: in bounds `LD Vx,[I]` loads `v[0] .. v[x]` inclusive from `i ..`; registers above `x`, `i` and memory stay. -/
def Obligations.RegistersLoaded : Prop :=
  ∀ (x : Nibble) (s : State), s.i.toNat + x.toNat ≤ 0xFFF →
    Completes (.loadRegs x) s { regs := regsUpTo x } (s.pc + 2) fun t =>
      ∀ k : Nibble, k.toNat ≤ x.toNat → t.reg k = s.mem.read (s.i.toNat + k.toNat)

/-- R35, R127 (D5): an instruction whose byte range passes 0xFFF raises `MemOutOfBounds` with nothing read or written. -/
def Obligations.MemoryRangeFaults : Prop :=
  (∀ (x : Nibble) (s : State), s.i.toNat + 2 > 0xFFF → Raises (.ldB x) s .memOutOfBounds) ∧
  (∀ (x : Nibble) (s : State), s.i.toNat + x.toNat > 0xFFF → Raises (.storeRegs x) s .memOutOfBounds) ∧
  (∀ (x : Nibble) (s : State), s.i.toNat + x.toNat > 0xFFF → Raises (.loadRegs x) s .memOutOfBounds) ∧
  ∀ (x y n : Nibble) (s : State), 1 ≤ n.toNat → s.i.toNat + n.toNat - 1 > 0xFFF →
    Raises (.drw x y n) s .memOutOfBounds

/-- R40: two bytes stored at the next instruction's address are that instruction, with nothing in between. -/
def Obligations.StoreIsSeenByTheNextFetch : Prop :=
  ∀ (x : Nibble) (s : State), 1 ≤ x.toNat → s.i = s.pc + 2 → s.i.toNat + x.toNat ≤ 0xFFF →
    ∃ t, exec (.storeRegs x) s = .next t ∧ t.fetch = some (wordOfBytes (s.reg 0) (s.reg 1))

/-! ### Display (44_display.md) -/

/-- R133: `CLS` turns every cell off, and writes no flag. -/
def Obligations.ClearScreenTurnsEveryCellOff : Prop :=
  ∀ s : State, Completes .cls s { fb := true } (s.pc + 2) fun t => ∀ row col, t.fb.get row col = false

/-- R134, R132, R136: when its bytes exist, or with `n = 0`, `DRW` flips exactly the cells under the sprite's 1 bits, placed with
wrap-around at the old `(v[x], v[y])`, and `VF` is 1 if one of them was on, else 0. The range check is D5. -/
def Obligations.DrawFlipsTheSpritesCells : Prop :=
  ∀ (x y n : Nibble) (s : State), n.toNat = 0 ∨ s.i.toNat + n.toNat - 1 ≤ 0xFFF →
    Completes (.drw x y n) s { regs := [vf], fb := true } (s.pc + 2) fun t =>
      let sprite := spriteCovers (s.reg x).toNat (s.reg y).toNat (s.mem.readBytes s.i.toNat n.toNat)
      (∀ row col, t.fb.get row col = (s.fb.get row col ^^ sprite row col)) ∧
      (t.reg vf = 0 ∨ t.reg vf = 1) ∧
      (t.reg vf = 1 ↔ ∃ row col, sprite row col = true ∧ s.fb.get row col = true)

/-- R135, the involution: the same sprite drawn again at the same place restores the framebuffer, and the second draw
collides if and only if the first turned a cell on; on a blank screen the first draw does not collide. And the
wrap-around: an 8 by 1 sprite `0xFF` at column 60 of an empty row 0 sets columns 60 to 63 and 0 to 3. -/
def Obligations.SpriteInvolutionAndWrap : Prop :=
  (∀ (x y n : Nibble) (s : State), n.toNat = 0 ∨ s.i.toNat + n.toNat - 1 ≤ 0xFFF →
    ∃ t, exec (.drw x y n) s = .next t ∧
      ((∀ row col, s.fb.get row col = false) → t.reg vf = 0) ∧
      ∀ u : State, u.fb = t.fb → u.reg x = s.reg x → u.reg y = s.reg y → u.i = s.i →
        (∀ a, u.mem.read a = s.mem.read a) →
        ∃ r, exec (.drw x y n) u = .next r ∧ r.fb = s.fb ∧
          (r.reg vf = 1 ↔ ∃ row col, s.fb.get row col = false ∧ t.fb.get row col = true)) ∧
  ∀ (x y : Nibble) (s : State), (s.reg x).toNat = 60 → (s.reg y).toNat = 0 → s.i.toNat ≤ 0xFFF →
    s.mem.read s.i.toNat = 0xFF → (∀ col, s.fb.get 0 col = false) →
    ∃ t, exec (.drw x y 1) s = .next t ∧
      ∀ col : Fin 64, t.fb.get 0 col = true ↔ 60 ≤ col.val ∨ col.val ≤ 3

/-! ### Keypad and timers (45_keypad_timers.md) -/

/-- R141, R142: `SKP` skips when key `v[x]` is pressed, `SKNP` when it is not. That `v[x] > 15` raises
`KeyIndexOutOfRange`, with nothing changed, is the spec's own decision D6. -/
def Obligations.KeySkips : Prop :=
  (∀ (x k : Nibble) (s : State), (s.reg x).toNat = k.toNat →
    Completes (.skp x) s {} (if s.key.getLsbD k.toNat = true then s.pc + 4 else s.pc + 2) fun _ => True) ∧
  (∀ (x k : Nibble) (s : State), (s.reg x).toNat = k.toNat →
    Completes (.sknp x) s {} (if s.key.getLsbD k.toNat = false then s.pc + 4 else s.pc + 2) fun _ => True) ∧
  ∀ (x : Nibble) (s : State), (s.reg x).toNat > 15 →
    Raises (.skp x) s .keyIndexOutOfRange ∧ Raises (.sknp x) s .keyIndexOutOfRange

/-- R143: with a key pressed `LD Vx,K` writes the index of a pressed key to `v[x]` and goes on (the write is the spec's
decision D12; which key, when several are pressed, is free, log 3); with none pressed `pc` stays and nothing is written. -/
def Obligations.KeyWaitTakesAPressedKey : Prop :=
  (∀ (x : Nibble) (s : State), s.key ≠ 0 →
    Completes (.ldVxK x) s { regs := [x] } (s.pc + 2) fun t =>
      (t.reg x).toNat < 16 ∧ s.key.getLsbD (t.reg x).toNat = true) ∧
  ∀ (x : Nibble) (s : State), s.key = 0 → Completes (.ldVxK x) s {} s.pc fun _ => True

/-- R144, R145, R146, as the instructions find the timers after the tick: `LD Vx,DT` copies `dt` to `v[x]`, `LD DT,Vx` and
`LD ST,Vx` copy `v[x]` to their timer. (The tick before them: TimersTickOncePerCycle.) -/
def Obligations.TimerMoves : Prop :=
  (∀ (x : Nibble) (s : State),
    Completes (.ldVxDT x) s { regs := [x] } (s.pc + 2) fun t => t.reg x = s.dt) ∧
  (∀ (x : Nibble) (s : State),
    Completes (.ldDTVx x) s { dt := true } (s.pc + 2) fun t => t.dt = s.reg x) ∧
  ∀ (x : Nibble) (s : State),
    Completes (.ldSTVx x) s { st := true } (s.pc + 2) fun t => t.st = s.reg x

/-- R147, R143: for as many cycles as no key is pressed a waiting `LD Vx,K` leaves the machine as it was but for the timers,
which run down by one a cycle to zero. -/
def Obligations.WaitingRunsTheTimersDown : Prop :=
  ∀ (k : Nat) (s : State) (w : Word) (x : Nibble), s.fault = none → s.fetch = some w →
    decodeWord w = .ldVxK x → s.key = 0 →
    ∃ t : State, Host.Core.run Sys2Proof.core k s = .next t ∧
      t.dt.toNat = s.dt.toNat - k ∧ t.st.toNat = s.st.toNat - k ∧ t = { s with dt := t.dt, st := t.st }

/-! ### The whole machine -/

/-- 10_state.md R11, R24, R80, R120, R140: from any state, whatever an instruction does, it changes nothing but `pc` and
what its row of `writes` allows; in particular no instruction writes the keypad, and only `RND` consumes entropy. -/
def Obligations.InstructionsWriteOnlyTheirOwn : Prop :=
  ∀ (i : Instr) (s t : State), exec i s = .next t → Unchanged (writes s i) s t

/-- 60_exceptions.md R160: no instruction stops the machine: from any state each answers a next state, and a step answers
one whenever no fault is latched. -/
def Obligations.EveryInstructionAnswersANextState : Prop :=
  (∀ (i : Instr) (s : State), ∃ t, exec i s = .next t) ∧
  ∀ s : State, s.fault = none → ∃ t, step s = .next t

/-- R160, R163, R167: an instruction raises a fault exactly under that fault's condition, and then changes the latch alone;
so no other instruction can fault and no two conditions compete. (The memory and key conditions are D5, D6.) -/
def Obligations.FaultsExactlyUnderTheirConditions : Prop :=
  (∀ (i : Instr) (s : State) (f : Fault), faultCondition s i f → Raises i s f) ∧
  ∀ (i : Instr) (s t : State) (f : Fault), s.fault = none → exec i s = .next t → t.fault = some f →
    faultCondition s i f

/-- R165 (D8): a cycle that latches a fault has changed nothing but the latch if the fetch failed, and nothing but the
timers, ticked once, and the latch otherwise; `pc` still addresses the faulting instruction. -/
def Obligations.FaultsArePrecise : Prop :=
  ∀ (s t : State) (f : Fault), s.fault = none → step s = .next t → t.fault = some f →
    (s.fetch = none ∧ t = { s with fault := some f }) ∨
    (s.fetch ≠ none ∧ t.dt.toNat = s.dt.toNat - 1 ∧ t.st.toNat = s.st.toNat - 1 ∧
      t = { s with dt := t.dt, st := t.st, fault := some f })

/-- R164, R166 (D7): no host operation but `construct` and `reset` clears a latched fault, `run_cycle` included; those two
do. -/
def Obligations.OnlyResetClearsTheLatch : Prop :=
  (∀ (s : State) (f : Fault) (op : HostOp), s.fault = some f → op ≠ .construct → op ≠ .reset →
    (perform s op).fault = some f) ∧
  ∀ s : State, (perform s .construct).fault = none ∧ (perform s .reset).fault = none

/-- R19, R140, R169: the keypad changes only by `key_down`, `key_up` and the two resets. -/
def Obligations.OnlyTheHostWritesTheKeypad : Prop :=
  (∀ s t : State, step s = .next t → t.key = s.key) ∧
  ∀ (s : State) (op : HostOp), op ≠ .construct → op ≠ .reset → (∀ k, op ≠ .keyDown k) → (∀ k, op ≠ .keyUp k) →
    (perform s op).key = s.key

/-- R26, R90: a step keeps the invariant: memory canonical, `pc` at most 0x10FE, every stack entry at most 0x1000. The
canonical form is the model's (log 6). -/
def Obligations.StepKeepsTheInvariant : Prop :=
  ∀ s t : State, s.Inv → step s = .next t → t.Inv

/-- R26: every host operation keeps the invariant. The canonical form is the model's (log 6). -/
def Obligations.HostOperationsKeepTheInvariant : Prop :=
  ∀ (s : State) (op : HostOp), s.Inv → (perform s op).Inv

/-- R26: the reset state meets the invariant. -/
def Obligations.ResetMeetsTheInvariant : Prop := State.reset.Inv

/-- Canonical memories that read alike are equal, so equal states are equal data (log 6). -/
def Obligations.CanonicalMemoriesThatReadAlikeAreEqual : Prop :=
  ∀ m m' : Memory, m.wf = true → m'.wf = true → (∀ a, a ≤ 0xFFF → m.read a = m'.read a) → m = m'

/-- R137: the framebuffer is visible to a program through the collision flag alone: two states that differ in it step to
states that differ in it, and for `DRW` in `VF`. -/
def Obligations.FramebufferShowsOnlyInTheCollisionFlag : Prop :=
  ∀ (s t : State) (fb : Framebuffer), step s = .next t →
    (∃ fb', step { s with fb := fb } = .next { t with fb := fb' }) ∨
    ((∃ w x y n, s.fetch = some w ∧ decodeWord w = .drw x y n) ∧
      ∃ fb' b, step { s with fb := fb } = .next { t.setReg vf b with fb := fb' })

/-- R16: no instruction reads the sound timer: two states that differ in it step to states that differ in it alone. -/
def Obligations.SoundTimerIsNeverRead : Prop :=
  ∀ (s t : State) (a : Byte), step s = .next t →
    ∃ b, step { s with st := a } = .next { t with st := b }

/-- D23's suggested end of a run, R81, R75: a `JP` to its own address repeats for ever: the step leaves the machine as it was but for
the timers, still at that jump. -/
def Obligations.SelfJumpRepeats : Prop :=
  ∀ s : State, s.Halted →
    ∃ t, step s = .next t ∧ t = { s with dt := t.dt, st := t.st } ∧ t.Halted

/-- R190: from a `pc` above which memory is zero, the machine executes no-ops to the end of memory and then faults at the
fetch, at 0x1000 for an even `pc` and at 0xFFF for an odd one. -/
def Obligations.RunningOffTheEndFaults : Prop :=
  ∀ (n : Nat) (s : State), s.fault = none →
    s.pc.toNat + 2 * n = 0xFFF ∨ s.pc.toNat + 2 * n = 0x1000 →
    (∀ a, s.pc.toNat ≤ a → a ≤ 0xFFF → s.mem.read a = 0) →
    ∃ t : State, Host.Core.run Sys2Proof.core n s = .next t ∧ t.pc.toNat = s.pc.toNat + 2 * n ∧
      step t = .next { t with fault := some .memOutOfBounds }

/-! ### The host interface -/

/-- R180, R68, R69: after `construct` and after `reset` in any state, every cell holds its reset value. The font's bytes are the
parameter `FONT`'s default (log 1). -/
def Obligations.ConstructAndResetGiveTheResetState : Prop :=
  State.reset.AtReset ∧ construct.AtReset ∧ ∀ s : State, (hostReset s).AtReset

/-- R70, R162 (D16): an image that fits is copied to 0x200 and nothing else changes; one that does not is refused with no change
at all. -/
def Obligations.LoadCopiesOrRefuses : Prop :=
  (∀ (bytes : List Byte) (s : State), 0x200 + bytes.length ≤ 4096 →
    ∃ t, hostLoad bytes s = (t, .ok) ∧ t = { s with mem := t.mem } ∧
      ∀ a, t.mem.read a =
        if 0x200 ≤ a ∧ a < 0x200 + bytes.length then bytes.getD (a - 0x200) 0 else s.mem.read a) ∧
  ∀ (bytes : List Byte) (s : State), 0x200 + bytes.length > 4096 →
    hostLoad bytes s = (s, .programLoadOverflow)

/-- R71, R72: `key_down(k)` sets bit `k`, `key_up(k)` clears it; every other key and all other state stay; both are idempotent. -/
def Obligations.KeyEventsChangeOneBit : Prop :=
  (∀ (k : Nibble) (s : State),
    hostKeyDown k s = { s with key := (hostKeyDown k s).key } ∧
    (∀ j : Nibble, (hostKeyDown k s).key.getLsbD j.toNat = (decide (j = k) || s.key.getLsbD j.toNat)) ∧
    hostKeyDown k (hostKeyDown k s) = hostKeyDown k s) ∧
  ∀ (k : Nibble) (s : State),
    hostKeyUp k s = { s with key := (hostKeyUp k s).key } ∧
    (∀ j : Nibble, (hostKeyUp k s).key.getLsbD j.toNat = (!decide (j = k) && s.key.getLsbD j.toNat)) ∧
    hostKeyUp k (hostKeyUp k s) = hostKeyUp k s

/-- R65: the snapshot is the 2048 cells in row-major order; a cycle that latches no fault returns it and whether `st > 0`, both of the
state at the end of the cycle (the sampling point is D13). -/
def Obligations.CycleReturnsSnapshotAndBeep : Prop :=
  (∀ fb : Framebuffer, (snapshot fb).length = 2048 ∧
    ∀ (row : Fin 32) (col : Fin 64), (snapshot fb)[row.val * 64 + col.val]? = some (fb.get row col)) ∧
  ∀ (rnd : Byte) (s t : State), step { s with entropy := [rnd] } = .next t → t.fault = none →
    runCycle rnd s = ({ t with entropy := s.entropy }, .ok (snapshot t.fb) (decide (t.st.toNat > 0)))

/-- R160, R163: a cycle that raises returns the failure with its cause and the info of R160's table: `pc` for a failed fetch and for
the stack faults, `i` for a data access, `v[x]` for a key index (D9). -/
def Obligations.FailureCarriesItsInfo : Prop :=
  (∀ (rnd : Byte) (s : State), s.fault = none → s.fetch = none →
    (runCycle rnd s).2 = .failure .memOutOfBounds (some s.pc.toNat)) ∧
  ∀ (rnd : Byte) (s : State) (w : Word) (f : Fault), s.fault = none → s.fetch = some w →
    faultCondition s (decodeWord w) f →
    (runCycle rnd s).2 = .failure f (some
      (match decodeWord w with
      | .skp x => (s.reg x).toNat
      | .sknp x => (s.reg x).toNat
      | .call _ => s.pc.toNat
      | .ret => s.pc.toNat
      | _ => s.i.toNat))

/-- R160 (D9): the five causes have the codes 1 to 5, so no two share one; a refused `load` answers code 5, and a cycle that raises
or repeats a latched fault answers that fault's code. -/
def Obligations.FailureCodesAreTheTables : Prop :=
  ([.latched .stackOverflow, .latched .stackUnderflow, .latched .memOutOfBounds, .latched .keyIndexOutOfRange,
    .programLoadOverflow] : List FailureCause).map failureCode = [1, 2, 3, 4, 5] ∧
  (∀ c d : FailureCause, failureCode c = failureCode d → c = d) ∧
  (∀ (bytes : List Byte) (s : State), 0x200 + bytes.length > 4096 →
    (loadCause (hostLoad bytes s).2).map failureCode = some 5) ∧
  ∀ (rnd : Byte) (s : State) (f : Fault), (runCycle rnd s).1.fault = some f →
    (cycleCause (runCycle rnd s).2).map failureCode = some (failureCode (.latched f))
end

