-- ==== Sys2Proof/Laws/State.lean ====
section
/-! SUPPORT. Each field after each update of the state, once, so that no proof unfolds an update. -/

namespace Sys2Proof.Machine

/-! ### `setReg` -/

@[simp] theorem setReg_v (s : State) (x : Nibble) (b : Byte) :
    (s.setReg x b).v = s.v.set x.toNat b x.isLt := rfl

@[simp] theorem setReg_i (s : State) (x : Nibble) (b : Byte) :
    (s.setReg x b).i = s.i := rfl

@[simp] theorem setReg_pc (s : State) (x : Nibble) (b : Byte) :
    (s.setReg x b).pc = s.pc := rfl

@[simp] theorem setReg_stack (s : State) (x : Nibble) (b : Byte) :
    (s.setReg x b).stack = s.stack := rfl

@[simp] theorem setReg_sp (s : State) (x : Nibble) (b : Byte) :
    (s.setReg x b).sp = s.sp := rfl

@[simp] theorem setReg_dt (s : State) (x : Nibble) (b : Byte) :
    (s.setReg x b).dt = s.dt := rfl

@[simp] theorem setReg_st (s : State) (x : Nibble) (b : Byte) :
    (s.setReg x b).st = s.st := rfl

@[simp] theorem setReg_mem (s : State) (x : Nibble) (b : Byte) :
    (s.setReg x b).mem = s.mem := rfl

@[simp] theorem setReg_fb (s : State) (x : Nibble) (b : Byte) :
    (s.setReg x b).fb = s.fb := rfl

@[simp] theorem setReg_key (s : State) (x : Nibble) (b : Byte) :
    (s.setReg x b).key = s.key := rfl

@[simp] theorem setReg_fault (s : State) (x : Nibble) (b : Byte) :
    (s.setReg x b).fault = s.fault := rfl

@[simp] theorem setReg_entropy (s : State) (x : Nibble) (b : Byte) :
    (s.setReg x b).entropy = s.entropy := rfl

@[simp] theorem setReg_draws (s : State) (x : Nibble) (b : Byte) :
    (s.setReg x b).draws = s.draws := rfl

/-! ### `tick` -/

@[simp] theorem tick_v (s : State) :
    (s.tick).v = s.v := rfl

@[simp] theorem tick_i (s : State) :
    (s.tick).i = s.i := rfl

@[simp] theorem tick_pc (s : State) :
    (s.tick).pc = s.pc := rfl

@[simp] theorem tick_stack (s : State) :
    (s.tick).stack = s.stack := rfl

@[simp] theorem tick_sp (s : State) :
    (s.tick).sp = s.sp := rfl

@[simp] theorem tick_dt (s : State) :
    (s.tick).dt = countDown s.dt := rfl

@[simp] theorem tick_st (s : State) :
    (s.tick).st = countDown s.st := rfl

@[simp] theorem tick_mem (s : State) :
    (s.tick).mem = s.mem := rfl

@[simp] theorem tick_fb (s : State) :
    (s.tick).fb = s.fb := rfl

@[simp] theorem tick_key (s : State) :
    (s.tick).key = s.key := rfl

@[simp] theorem tick_fault (s : State) :
    (s.tick).fault = s.fault := rfl

@[simp] theorem tick_entropy (s : State) :
    (s.tick).entropy = s.entropy := rfl

@[simp] theorem tick_draws (s : State) :
    (s.tick).draws = s.draws := rfl

/-! ### `consumeEntropy` -/

@[simp] theorem consumeEntropy_v (s : State) :
    (s.consumeEntropy).v = s.v := rfl

@[simp] theorem consumeEntropy_i (s : State) :
    (s.consumeEntropy).i = s.i := rfl

@[simp] theorem consumeEntropy_pc (s : State) :
    (s.consumeEntropy).pc = s.pc := rfl

@[simp] theorem consumeEntropy_stack (s : State) :
    (s.consumeEntropy).stack = s.stack := rfl

@[simp] theorem consumeEntropy_sp (s : State) :
    (s.consumeEntropy).sp = s.sp := rfl

@[simp] theorem consumeEntropy_dt (s : State) :
    (s.consumeEntropy).dt = s.dt := rfl

@[simp] theorem consumeEntropy_st (s : State) :
    (s.consumeEntropy).st = s.st := rfl

@[simp] theorem consumeEntropy_mem (s : State) :
    (s.consumeEntropy).mem = s.mem := rfl

@[simp] theorem consumeEntropy_fb (s : State) :
    (s.consumeEntropy).fb = s.fb := rfl

@[simp] theorem consumeEntropy_key (s : State) :
    (s.consumeEntropy).key = s.key := rfl

@[simp] theorem consumeEntropy_fault (s : State) :
    (s.consumeEntropy).fault = s.fault := rfl

@[simp] theorem consumeEntropy_entropy (s : State) :
    (s.consumeEntropy).entropy = s.entropy.tail := rfl

@[simp] theorem consumeEntropy_draws (s : State) :
    (s.consumeEntropy).draws = s.draws + 1 := rfl

/-! ### Registers -/

/-- A register of a state written out is an entry of its register file. -/
@[simp] theorem reg_mk (v : Vector Byte 16) (i pc : Word) (stack : Vector Word 16) (sp : Fin 17) (dt st : Byte)
    (mem : Memory) (fb : Framebuffer) (key : Word) (fault : Option Fault) (entropy : List Byte) (draws : Nat)
    (x : Nibble) :
    State.reg ⟨v, i, pc, stack, sp, dt, st, mem, fb, key, fault, entropy, draws⟩ x = v[x.toNat]'x.isLt := rfl

@[simp] theorem tick_reg (s : State) (x : Nibble) : s.tick.reg x = s.reg x := rfl

@[simp] theorem consumeEntropy_reg (s : State) (x : Nibble) : s.consumeEntropy.reg x = s.reg x := rfl

/-- A register entry is the register. -/
@[simp] theorem v_getElem (s : State) (x : Nibble) : s.v[x.toNat]'x.isLt = s.reg x := rfl

/-- After a write to `v[x]`, register `y` holds the byte written if it is `x`, and what it held otherwise. -/
theorem reg_setReg (s : State) (x y : Nibble) (b : Byte) :
    (s.setReg x b).reg y = if y = x then b else s.reg y := by
  by_cases h : y = x
  · subst h; simp [State.setReg]
  · have h' : x.toNat ≠ y.toNat := fun e => h (BitVec.eq_of_toNat_eq e.symm)
    simp [State.setReg, h, h']

@[simp] theorem reg_setReg_self (s : State) (x : Nibble) (b : Byte) : (s.setReg x b).reg x = b := by
  simp [reg_setReg]

theorem reg_setReg_other (s : State) {x y : Nibble} (b : Byte) (h : y ≠ x) :
    (s.setReg x b).reg y = s.reg y := by
  simp [reg_setReg, h]

/-- Register `y` after a result and a flag are written: the flag if it is `VF`, else the result if it is `x`. -/
theorem reg_setRegAndFlag (s : State) (x y : Nibble) (b : Byte) (f : Bool) :
    (s.setRegAndFlag x b f).reg y = if y = vf then flagByte f else if y = x then b else s.reg y := by
  simp [State.setRegAndFlag, reg_setReg]

end Sys2Proof.Machine
end

