-- ==== Sys2Proof/Laws/Display.lean ====
section
/-! SUPPORT. The framebuffer: a cell after a write, and what the sprite blit does to every cell. -/

namespace Sys2Proof.Machine

@[simp] theorem get_blank (row : Fin 32) (col : Fin 64) : Framebuffer.blank.get row col = false := by
  simp [Framebuffer.get, Framebuffer.blank]

/-- After a cell is written, a cell holds the value written if it is that cell, and what it held otherwise. -/
theorem get_put (fb : Framebuffer) (r row : Fin 32) (c col : Fin 64) (b : Bool) :
    (fb.put r c b).get row col = if row = r ∧ col = c then b else fb.get row col := by
  unfold Framebuffer.get Framebuffer.put
  by_cases hr : row = r
  · subst hr
    by_cases hc : col = c
    · subst hc; simp
    · have : c.val ≠ col.val := fun e => hc (Fin.ext e.symm)
      simp [hc, this]
  · have : r.val ≠ row.val := fun e => hr (Fin.ext e.symm)
    simp [hr, this]

/-- Whether the sprite row `byte` drawn from column `x0` has a 1 bit over column `col`. -/
def rowCovers (x0 : Nat) (byte : Byte) (col : Fin 64) : Bool :=
  let c := (col.val + 64 - x0 % 64) % 64
  decide (c < 8) && byte.getLsbD (7 - c)

/-- Two framebuffers with the same cells are the same. -/
theorem framebuffer_ext {fb fb' : Framebuffer} (h : ∀ row col, fb.get row col = fb'.get row col) : fb = fb' := by
  refine Vector.ext fun r hr => Vector.ext fun c hc => ?_
  exact h ⟨r, hr⟩ ⟨c, hc⟩

/-- The columns a partial row has flipped: those at a distance in `cs` whose bit is 1. -/
theorem foldl_blitBit (x0 row : Nat) (byte : Byte) (cs : List Nat) (acc : Blit)
    (hcs : cs.Pairwise (· < ·)) (hlt : ∀ c ∈ cs, c < 8) :
    let out := cs.foldl (blitBit x0 row byte) acc
    let hit (r : Fin 32) (c : Fin 64) : Bool :=
      decide (r = wrapRow row) && (decide ((c.val + 64 - x0 % 64) % 64 ∈ cs) && byte.getLsbD (7 - (c.val + 64 - x0 % 64) % 64))
    (∀ r c, out.1.get r c = (acc.1.get r c ^^ hit r c)) ∧
    (out.2 = true ↔ acc.2 = true ∨ ∃ r c, hit r c = true ∧ acc.1.get r c = true) := by
  induction cs generalizing acc with
  | nil => simp
  | cons d cs ih =>
    obtain ⟨hd, hcs⟩ := List.pairwise_cons.mp hcs
    have hd8 : d < 8 := hlt d (by simp)
    have ih := ih (blitBit x0 row byte acc d) hcs fun c hc => hlt c (by simp [hc])
    have hnot : d ∉ cs := fun h => Nat.lt_irrefl _ (hd d h)
    have hcol : ∀ c : Fin 64, c = wrapCol (x0 + d) ↔ (c.val + 64 - x0 % 64) % 64 = d := by
      intro c
      simp only [wrapCol, Fin.ext_iff]
      have := c.isLt
      omega
    simp only [List.foldl_cons]
    simp only at ih ⊢
    obtain ⟨ihget, ihhit⟩ := ih
    have hcell : ∀ r c, (blitBit x0 row byte acc d).1.get r c =
        (acc.1.get r c ^^ (decide (r = wrapRow row) && (decide ((c.val + 64 - x0 % 64) % 64 = d) && byte.getLsbD (7 - d)))) := by
      intro r c
      unfold blitBit
      by_cases hb : byte.getLsbD (7 - d) = true
      · rw [if_pos hb]
        simp only [get_put, hcol c]
        by_cases hr : r = wrapRow row
        · by_cases hc : (c.val + 64 - x0 % 64) % 64 = d
          · have : c = wrapCol (x0 + d) := (hcol c).mpr hc
            subst hr; subst this
            simp [hc, hb]
          · simp [hc]
        · simp [hr]
      · simp only [Bool.not_eq_true] at hb
        simp [hb]
    have hcoll : (blitBit x0 row byte acc d).2 =
        (acc.2 || (byte.getLsbD (7 - d) && acc.1.get (wrapRow row) (wrapCol (x0 + d)))) := by
      unfold blitBit
      by_cases hb : byte.getLsbD (7 - d) = true <;> simp [hb]
    refine ⟨fun r c => ?_, ?_⟩
    · rw [ihget, hcell]
      by_cases hc : (c.val + 64 - x0 % 64) % 64 = d
      · simp [hc, hnot]
      · simp [hc]
    · rw [ihhit, hcoll]
      constructor
      · rintro (h | ⟨r, c, h, hg⟩)
        · rcases Bool.or_eq_true _ _ ▸ h with h | h
          · exact .inl h
          · rw [Bool.and_eq_true] at h
            refine .inr ⟨wrapRow row, wrapCol (x0 + d), ?_, h.2⟩
            have e := (hcol (wrapCol (x0 + d))).mp rfl
            simp [e, h.1]
        · simp only [Bool.and_eq_true, decide_eq_true_eq] at h
          refine .inr ⟨r, c, by simp [h], ?_⟩
          rw [hcell] at hg
          have hne : ¬ (c.val + 64 - x0 % 64) % 64 = d := fun e => hnot (e ▸ h.2.1)
          simpa [hne] using hg
      · rintro (h | ⟨r, c, h, hg⟩)
        · exact .inl (by simp [h])
        · simp only [Bool.and_eq_true, decide_eq_true_eq, List.mem_cons] at h
          obtain ⟨hr, hmem, hb⟩ := h
          rcases hmem with e | hmem
          · have hc := (hcol c).mpr e
            rw [e] at hb
            subst hr; subst hc
            exact .inl (by simp [hb, hg])
          · refine .inr ⟨r, c, by simp [hr, hmem, hb], ?_⟩
            have hne : ¬ (c.val + 64 - x0 % 64) % 64 = d := fun e => hnot (e ▸ hmem)
            rw [hcell]; simpa [hne] using hg

/-- One sprite row flips exactly the cells under its 1 bits, and collides when one of them was on. -/
theorem blitRow_spec (x0 row : Nat) (byte : Byte) (acc : Blit) :
    (∀ r c, (blitRow x0 row byte acc).1.get r c =
      (acc.1.get r c ^^ (decide (r = wrapRow row) && rowCovers x0 byte c))) ∧
    ((blitRow x0 row byte acc).2 = true ↔ acc.2 = true ∨
      ∃ r c, (decide (r = wrapRow row) && rowCovers x0 byte c) = true ∧ acc.1.get r c = true) := by
  have h := foldl_blitBit x0 row byte [0, 1, 2, 3, 4, 5, 6, 7] acc (by decide) (by decide)
  have hm : ∀ n : Nat, n ∈ [0, 1, 2, 3, 4, 5, 6, 7] ↔ n < 8 := by intro n; simp; omega
  simpa only [hm, blitRow, rowCovers] using h

/-- Row `r` of the torus counted from `y0`. -/
theorem row_distance (y0 n : Nat) (r : Fin 32) (hn : n < 32) :
    r = wrapRow (y0 + n) ↔ (r.val + 32 - y0 % 32) % 32 = n := by
  simp only [wrapRow, Fin.ext_iff]
  have := r.isLt
  omega

/-- The blit flips exactly the cells the sprite covers, and collides when one of them was on (44_display.md R132,
R136): the sprite is at most 32 rows high, so no cell is visited twice. -/
theorem blit_spec (x0 : Nat) (bytes : List Byte) (y0 : Nat) (acc : Blit) (h : bytes.length ≤ 32) :
    (∀ r c, (blit x0 y0 bytes acc).1.get r c = (acc.1.get r c ^^ spriteCovers x0 y0 bytes r c)) ∧
    ((blit x0 y0 bytes acc).2 = true ↔ acc.2 = true ∨
      ∃ r c, spriteCovers x0 y0 bytes r c = true ∧ acc.1.get r c = true) := by
  induction bytes generalizing y0 acc with
  | nil => simp [blit, spriteCovers]
  | cons byte bytes ih =>
    simp only [List.length_cons] at h
    obtain ⟨rowGet, rowHit⟩ := blitRow_spec x0 y0 byte acc
    obtain ⟨ihGet, ihHit⟩ := ih (y0 + 1) (blitRow x0 y0 byte acc) (by omega)
    have split : ∀ (r : Fin 32) (c : Fin 64), spriteCovers x0 y0 (byte :: bytes) r c =
        ((decide (r = wrapRow y0) && rowCovers x0 byte c) || spriteCovers x0 (y0 + 1) bytes r c) ∧
        ((decide (r = wrapRow y0) && rowCovers x0 byte c) = true → spriteCovers x0 (y0 + 1) bytes r c = false) := by
      intro r c
      have h0 := row_distance y0 0 r (by omega)
      simp only [Nat.add_zero] at h0
      have hlt := r.isLt
      by_cases hr : (r.val + 32 - y0 % 32) % 32 = 0
      · have h1 : (r.val + 32 - (y0 + 1) % 32) % 32 = 31 := by omega
        have h2 : ¬ 31 < bytes.length := by omega
        simp [spriteCovers, rowCovers, h0, hr, h1, h2]
      · have h1 : (r.val + 32 - y0 % 32) % 32 = (r.val + 32 - (y0 + 1) % 32) % 32 + 1 := by omega
        simp [spriteCovers, h0, h1]
    refine ⟨fun r c => ?_, ?_⟩
    · rw [blit, ihGet, rowGet, (split r c).1]
      have := (split r c).2
      cases hA : (decide (r = wrapRow y0) && rowCovers x0 byte c)
      · simp
      · simp [this hA]
    · rw [blit, ihHit, rowHit]
      constructor
      · rintro ((h | ⟨r, c, hc, hg⟩) | ⟨r, c, hc, hg⟩)
        · exact .inl h
        · exact .inr ⟨r, c, by rw [(split r c).1, hc, Bool.true_or], hg⟩
        · refine .inr ⟨r, c, by rw [(split r c).1, hc, Bool.or_true], ?_⟩
          rw [rowGet] at hg
          cases hA : (decide (r = wrapRow y0) && rowCovers x0 byte c)
          · simpa [hA] using hg
          · rw [(split r c).2 hA] at hc; exact absurd hc (by simp)
      · rintro (h | ⟨r, c, hc, hg⟩)
        · exact .inl (.inl h)
        · cases hA : (decide (r = wrapRow y0) && rowCovers x0 byte c)
          · rw [(split r c).1, hA, Bool.false_or] at hc
            exact .inr ⟨r, c, hc, by rw [rowGet, hA]; simpa using hg⟩
          · exact .inl (.inr ⟨r, c, hA, hg⟩)

end Sys2Proof.Machine
end

