-- ==== Sys2Proof/Laws/HostInterface.lean ====
section
/-! SUPPORT. What the host's operations can do, once each: the two ways `run_cycle` ends, and the codes of the causes. -/

namespace Sys2Proof.Machine

/-- With a fault latched `run_cycle` changes nothing and fails with the latched cause (R67). -/
theorem runCycle_latched {s : State} {f : Fault} (rnd : Byte) (h : s.fault = some f) :
    runCycle rnd s = (s, .failure f none) := by
  have hs : step { s with entropy := [rnd] } = .fault f := by simp only [step, h]
  simp only [runCycle, hs]

/-- When the step answers `t`, `run_cycle` ends in `t` with the host's entropy put back, and fails exactly when `t` has
a fault latched. -/
theorem runCycle_next {s t : State} {rnd : Byte} (h : step { s with entropy := [rnd] } = .next t) :
    runCycle rnd s = ({ t with entropy := s.entropy },
      match t.fault with
      | none => .ok (snapshot t.fb) (beep t)
      | some f => .failure f (some (failureInfo s f))) := by
  cases hf : t.fault <;> simp only [runCycle, h, hf]

/-- An image that does not fit is refused with the state as it was (R162). -/
theorem hostLoad_overflow {bytes : List Byte} (s : State) (h : programBase + bytes.length > memSize) :
    hostLoad bytes s = (s, .programLoadOverflow) := if_pos h

/-- An image that fits is stored from the program base on (R70). -/
theorem hostLoad_ok {bytes : List Byte} (s : State) (h : programBase + bytes.length ≤ memSize) :
    hostLoad bytes s = ({ s with mem := s.mem.writeBytes programBase bytes }, .ok) := if_neg (Nat.not_lt.2 h)

/-- The code of a latched cause is one of 1 to 4. -/
theorem failureCode_latched_le (f : Fault) : 1 ≤ failureCode (.latched f) ∧ failureCode (.latched f) ≤ 4 := by
  cases f <;> decide

end Sys2Proof.Machine
end

