-- ==== Sys2Proof/Laws/Memory.lean ====
section
/-! SUPPORT. Memory: a read after a write, and that every memory operation keeps the canonical form. -/

namespace Sys2Proof.Machine

/-! ### Reading -/

theorem read_erase (m : Memory) (a k : Nat) :
    (m.erase a).read k = if k = a then unlisted k else m.read k := by
  induction m with
  | nil => simp [Memory.erase, Memory.read]
  | cons c m ih =>
    obtain ⟨j, b⟩ := c
    simp only [Memory.erase] at ih ⊢
    by_cases hj : j = a
    · subst hj
      by_cases hk : k = j
      · subst hk; simpa using ih
      · have : ¬ j = k := fun e => hk e.symm
        simpa [Memory.read, hk, this] using ih
    · by_cases hk : j = k
      · subst hk; simp [Memory.read, hj]
      · simp only [List.filter_cons, ne_eq, hj, not_false_eq_true, decide_true, if_true,
          Memory.read, hk, if_false]
        exact ih

/-- A read finds an inserted cell when nothing else is listed at its address. -/
theorem read_insert (m : Memory) (a k : Nat) (b : Byte) (h : ∀ c ∈ m, c.1 ≠ a) :
    (m.insert a b).read k = if k = a then b else m.read k := by
  induction m with
  | nil => simp [Memory.insert, Memory.read, eq_comm]
  | cons c m ih =>
    obtain ⟨j, d⟩ := c
    have hj : j ≠ a := h (j, d) (by simp)
    have ih := ih fun c hc => h c (by simp [hc])
    simp only [Memory.insert]
    split
    · by_cases hk : k = a
      · simp [Memory.read, hk]
      · have : ¬ a = k := fun e => hk e.symm
        simp [Memory.read, hk, this]
    · by_cases hk : j = k
      · subst hk; simp [Memory.read, hj]
      · simp [Memory.read, hk, ih]

theorem erase_forgets (m : Memory) (a : Nat) : ∀ c ∈ m.erase a, c.1 ≠ a := by
  simp [Memory.erase]

/-- A read after a write gives the byte written at its address, and what stood there elsewhere (20_memory.md R37). -/
theorem read_write (m : Memory) (a k : Nat) (b : Byte) :
    (m.write a b).read k = if k = a then b else m.read k := by
  unfold Memory.write
  split
  · rename_i h
    rw [read_erase]
    by_cases hk : k = a <;> simp [hk, h]
  · rw [read_insert _ _ _ _ (erase_forgets m a), read_erase]
    by_cases hk : k = a <;> simp [hk]

/-- A block write gives the block's bytes inside its range, and what stood there outside. -/
theorem read_writeBytes (bs : List Byte) (m : Memory) (a k : Nat) :
    (m.writeBytes a bs).read k =
      if a ≤ k ∧ k < a + bs.length then bs.getD (k - a) 0 else m.read k := by
  induction bs generalizing m a with
  | nil => simp [Memory.writeBytes]
  | cons b bs ih =>
    simp only [Memory.writeBytes, ih, read_write, List.length_cons]
    by_cases hk : k = a
    · subst hk
      simp
    · by_cases h : a + 1 ≤ k ∧ k < a + 1 + bs.length
      · obtain ⟨n, rfl⟩ : ∃ n, k = a + 1 + n := Nat.exists_eq_add_of_le h.1
        have h2 : a ≤ a + 1 + n ∧ a + 1 + n < a + (bs.length + 1) := by omega
        have e1 : a + 1 + n - (a + 1) = n := by omega
        have e2 : a + 1 + n - a = n + 1 := by omega
        rw [if_pos h, if_pos h2, e1, e2, List.getD_cons_succ]
      · have h2 : ¬ (a ≤ k ∧ k < a + (bs.length + 1)) := by omega
        rw [if_neg h, if_neg h2, if_neg hk]

@[simp] theorem length_readBytes (m : Memory) (a len : Nat) : (m.readBytes a len).length = len := by
  simp [Memory.readBytes]

@[simp] theorem getElem_readBytes (m : Memory) (a len k : Nat) (h : k < (m.readBytes a len).length) :
    (m.readBytes a len)[k] = m.read (a + k) := by
  simp [Memory.readBytes]

/-! ### The canonical form -/

theorem risesFrom_mono {m : Memory} {lo lo' : Nat} (h : m.risesFrom lo = true) (hl : lo' ≤ lo) :
    m.risesFrom lo' = true := by
  cases m with
  | nil => rfl
  | cons c m =>
    simp only [Memory.risesFrom, Bool.and_eq_true, decide_eq_true_eq] at h ⊢
    exact ⟨by omega, h.2⟩

theorem risesFrom_erase {m : Memory} {lo : Nat} (a : Nat) (h : m.risesFrom lo = true) :
    (m.erase a).risesFrom lo = true := by
  induction m generalizing lo with
  | nil => rfl
  | cons c m ih =>
    obtain ⟨j, d⟩ := c
    simp only [Memory.risesFrom, Bool.and_eq_true, decide_eq_true_eq] at h
    have ih := ih h.2
    simp only [Memory.erase, List.filter_cons] at ih ⊢
    split
    · rw [Memory.risesFrom, ih]; simp [h.1]
    · exact risesFrom_mono ih (by omega)

theorem risesFrom_insert {m : Memory} {lo a : Nat} (b : Byte) (h : m.risesFrom lo = true)
    (ha : ∀ c ∈ m, c.1 ≠ a) (hl : lo ≤ a) : (m.insert a b).risesFrom lo = true := by
  induction m generalizing lo with
  | nil => simp [Memory.insert, Memory.risesFrom, hl]
  | cons c m ih =>
    obtain ⟨j, d⟩ := c
    have hj : j ≠ a := ha (j, d) (by simp)
    simp only [Memory.risesFrom, Bool.and_eq_true, decide_eq_true_eq] at h
    simp only [Memory.insert]
    split
    · simp only [Memory.risesFrom, Bool.and_eq_true, decide_eq_true_eq]
      exact ⟨hl, by omega, h.2⟩
    · simp only [Memory.risesFrom, Bool.and_eq_true, decide_eq_true_eq]
      exact ⟨h.1, ih h.2 (fun c hc => ha c (by simp [hc])) (by omega)⟩

theorem mem_insert {m : Memory} {a : Nat} {b : Byte} {c : Host.Cell} (h : c ∈ m.insert a b) :
    c = (a, b) ∨ c ∈ m := by
  induction m with
  | nil => simpa [Memory.insert] using h
  | cons d m ih =>
    obtain ⟨j, e⟩ := d
    simp only [Memory.insert] at h
    split at h
    · simpa using h
    · rcases List.mem_cons.mp h with h | h
      · simp [h]
      · rcases ih h with h | h <;> simp [h]

/-- Memory at reset is canonical. -/
theorem reset_mem_wf : State.reset.mem.wf = true := rfl

/-- A write inside the address space keeps the canonical form. -/
theorem wf_write {m : Memory} (h : m.wf = true) {a : Nat} (ha : a < memSize) (b : Byte) :
    (m.write a b).wf = true := by
  simp only [Memory.wf, Bool.and_eq_true, List.all_eq_true] at h ⊢
  have hsub : ∀ c ∈ m.erase a, c ∈ m := fun c hc => List.mem_of_mem_filter hc
  unfold Memory.write
  split
  · exact ⟨risesFrom_erase a h.1, fun c hc => h.2 c (hsub c hc)⟩
  · rename_i hb
    refine ⟨risesFrom_insert b (risesFrom_erase a h.1) (erase_forgets m a) (Nat.zero_le a), fun c hc => ?_⟩
    rcases mem_insert hc with rfl | hc
    · simp [ha, hb]
    · exact h.2 c (hsub c hc)

/-- A block write inside the address space keeps the canonical form. -/
theorem wf_writeBytes (bs : List Byte) {m : Memory} (h : m.wf = true) {a : Nat}
    (ha : a + bs.length ≤ memSize) : (m.writeBytes a bs).wf = true := by
  induction bs generalizing m a with
  | nil => exact h
  | cons b bs ih =>
    simp only [List.length_cons] at ha
    exact ih (wf_write h (by omega) b) (by omega)

end Sys2Proof.Machine
end

