-- ==== Sys2Proof/Laws/Ops.lean ====
section
/-! SUPPORT. One lemma per shared operation: everything it can do. -/

namespace Sys2Proof.Machine

/-! ### Bounds -/

theorem inBounds_iff (a len : Nat) : inBounds a len = true ↔ len = 0 ∨ a + len ≤ 4096 := by
  simp only [inBounds, Bool.or_eq_true, beq_iff_eq, decide_eq_true_eq]

/-! ### Endings -/

/-- An instruction that ends normally answers exactly its state with the directive applied to `pc`. -/
@[simp] theorem finish_eq (d : Directive) (s : State) :
    finish d s = .next { s with pc := d.target s.pc } := rfl

@[simp] theorem raise_eq (f : Fault) (s : State) : raise f s = .next { s with fault := some f } := rfl

@[simp] theorem target_next (pc : Word) : Directive.next.target pc = pc + 2 := rfl
@[simp] theorem target_skip (pc : Word) : Directive.skip.target pc = pc + 4 := rfl
@[simp] theorem target_jump (a pc : Word) : (Directive.jump a).target pc = a := rfl
@[simp] theorem target_stay (pc : Word) : Directive.stay.target pc = pc := rfl

@[simp] theorem target_skipIf (c : Bool) (pc : Word) :
    (skipIf c).target pc = if c then pc + 4 else pc + 2 := by
  cases c <;> rfl

/-- The range check passes its body in bounds, and raises `MemOutOfBounds` otherwise. -/
theorem withRange_eq (len : Nat) (s : State) (body : Result) :
    withRange len s body =
      if len = 0 ∨ s.i.toNat + len ≤ 4096 then body else .next { s with fault := some .memOutOfBounds } := by
  unfold withRange
  by_cases h : len = 0 ∨ s.i.toNat + len ≤ 4096
  · rw [if_pos ((inBounds_iff _ _).mpr h), if_pos h]
  · rw [if_neg (fun e => h ((inBounds_iff _ _).mp e)), if_neg h]; rfl

/-! ### The stack -/

/-- A push below capacity stores the address at `stack[sp]` and raises `sp`. -/
theorem push_of_lt {s : State} (h : s.sp.val < 16) (a : Word) :
    s.push a = some { s with stack := s.stack.set s.sp.val a h, sp := ⟨s.sp.val + 1, by omega⟩ } := by
  simp [State.push, h]

/-- A push at capacity fails. -/
theorem push_of_full {s : State} (h : s.sp.val = 16) (a : Word) : s.push a = none := by
  simp [State.push, h]

/-- A pop above zero gives `stack[sp - 1]` and lowers `sp`. -/
theorem pop_of_pos {s : State} (h : s.sp.val ≠ 0) :
    s.pop = some (s.stack[s.sp.val - 1], { s with sp := ⟨s.sp.val - 1, by omega⟩ }) := by
  simp [State.pop, h]

/-- A pop at zero fails. -/
theorem pop_of_empty {s : State} (h : s.sp.val = 0) : s.pop = none := by
  simp [State.pop, h]

/-! ### Fetch and tick -/

/-- The fetch gives the big-endian word at `pc` when both bytes exist, and nothing otherwise. -/
theorem fetch_eq (s : State) :
    s.fetch = if s.pc.toNat + 2 ≤ 4096 then
      some (wordOfBytes (s.mem.read s.pc.toNat) (s.mem.read (s.pc.toNat + 1))) else none := by
  simp [State.fetch, inBounds_iff]

/-- A timer counts down by one, floor at zero. -/
theorem toNat_countDown (t : Byte) : (countDown t).toNat = t.toNat - 1 := by
  unfold countDown
  split
  · rename_i h; simp [h]
  · rename_i h
    have : t.toNat ≠ 0 := fun e => h (BitVec.eq_of_toNat_eq (by simpa using e))
    have := t.isLt
    rw [BitVec.toNat_sub]; simp; omega

/-! ### One step -/

/-- What a step answers: the latched cause; or the fetch fault, before the tick; or the instruction at `pc`, after the
tick (40_cycle_and_host.md R60). -/
theorem step_cases (s : State) :
    (∃ f, s.fault = some f ∧ step s = .fault f) ∨
    (s.fault = none ∧ s.fetch = none ∧ step s = .next { s with fault := some .memOutOfBounds }) ∨
    (∃ w, s.fault = none ∧ s.fetch = some w ∧ step s = exec (decodeWord w) s.tick) := by
  unfold step
  rcases hf : s.fault with _ | f
  · rcases hw : s.fetch with _ | w
    · exact .inr (.inl ⟨rfl, rfl, rfl⟩)
    · exact .inr (.inr ⟨w, rfl, rfl, rfl⟩)
  · exact .inl ⟨f, rfl, rfl⟩

/-! ### Block register loads -/

/-- After a block of registers is written from `v[k]` on, register `y` holds the block's byte if it is inside. -/
theorem reg_setRegsFrom (bs : List Byte) (s : State) (k : Nat) (y : Nibble) (h : k + bs.length ≤ 16) :
    (s.setRegsFrom k bs).reg y =
      if k ≤ y.toNat ∧ y.toNat < k + bs.length then bs.getD (y.toNat - k) 0 else s.reg y := by
  induction bs generalizing s k with
  | nil => simp [State.setRegsFrom]
  | cons b bs ih =>
    simp only [List.length_cons] at h ⊢
    simp only [State.setRegsFrom]
    rw [ih _ _ (by omega), reg_setReg]
    have hy : y = BitVec.ofNat 4 k ↔ y.toNat = k := by
      constructor
      · rintro rfl; simp; omega
      · intro e; apply BitVec.eq_of_toNat_eq; simp; omega
    by_cases hk : y.toNat = k
    · have h1 : ¬ (k + 1 ≤ y.toNat ∧ y.toNat < k + 1 + bs.length) := by omega
      have h2 : k ≤ y.toNat ∧ y.toNat < k + (bs.length + 1) := by omega
      rw [if_neg h1, if_pos (hy.mpr hk), if_pos h2, hk, Nat.sub_self, List.getD_cons_zero]
    · rw [if_neg (fun e => hk (hy.mp e))]
      by_cases h1 : k + 1 ≤ y.toNat ∧ y.toNat < k + 1 + bs.length
      · have h2 : k ≤ y.toNat ∧ y.toNat < k + (bs.length + 1) := by omega
        obtain ⟨n, hn⟩ : ∃ n, y.toNat = k + 1 + n := Nat.exists_eq_add_of_le h1.1
        have e1 : k + 1 + n - (k + 1) = n := by omega
        have e2 : k + 1 + n - k = n + 1 := by omega
        rw [if_pos h1, if_pos h2, hn, e1, e2, List.getD_cons_succ]
      · have h2 : ¬ (k ≤ y.toNat ∧ y.toNat < k + (bs.length + 1)) := by omega
        rw [if_neg h1, if_neg h2]

/-- A block register load writes the register file alone. -/
theorem setRegsFrom_eq (bs : List Byte) (s : State) (k : Nat) :
    s.setRegsFrom k bs = { s with v := (s.setRegsFrom k bs).v } := by
  induction bs generalizing s k with
  | nil => rfl
  | cons b bs ih => rw [State.setRegsFrom, ih]; rfl

/-! ### The keypad -/

theorem mem_pressedKeys (key : Word) (k : Nibble) :
    k ∈ pressedKeys key ↔ key.getLsbD k.toNat = true := by
  simp only [pressedKeys, List.mem_map, List.mem_filter, List.mem_range]
  constructor
  · rintro ⟨n, ⟨hn, hk⟩, rfl⟩
    have e : (BitVec.ofNat 4 n).toNat = n := by simp; omega
    rwa [e]
  · intro h
    exact ⟨k.toNat, ⟨k.isLt, h⟩, by simp⟩

/-- With no key pressed none is selected; otherwise the one selected is pressed (45_keypad_timers.md R143). -/
theorem keySelect_spec (key : Word) :
    match keySelect key with
    | none => key = 0
    | some k => key.getLsbD k.toNat = true := by
  unfold keySelect
  rcases h : pressedKeys key with _ | ⟨k, _ | ⟨l, ks⟩⟩
  · refine BitVec.eq_of_getLsbD_eq fun n hn => ?_
    have := mem_pressedKeys key (BitVec.ofNat 4 n)
    have e : (BitVec.ofNat 4 n).toNat = n := by simp; omega
    rw [h, e] at this
    simpa using this
  · simp only
    rw [← mem_pressedKeys, h]; simp
  · simp only
    rw [← mem_pressedKeys, h]
    have hlt : Config.keyChoice key % (ks.length + 2) < (k :: l :: ks).length := Nat.mod_lt _ (by omega)
    rw [List.getD_eq_getElem _ _ hlt]
    exact List.getElem_mem hlt

end Sys2Proof.Machine
end

