-- ==== Sys2Proof/Laws/PerInstr.lean ====
section
/-! SUPPORT. One lemma per constructor: the encoded word holds the major opcode and every operand in its own field. -/

namespace Sys2Proof.Laws.FieldsInPlace

/-- The word of an instruction holds its major opcode in nibble 0 and each operand in the field 30_encoding.md R46 and
R47 give it; the default no-op is its own word. -/
def Statement : Instr → Prop
  | .cls => fieldOp (encodeWord .cls) = 0x0
  | .ret => fieldOp (encodeWord .ret) = 0x0
  | .jp nnn => fieldOp (encodeWord (.jp nnn)) = 0x1 ∧ fieldNnn (encodeWord (.jp nnn)) = nnn
  | .call nnn => fieldOp (encodeWord (.call nnn)) = 0x2 ∧ fieldNnn (encodeWord (.call nnn)) = nnn
  | .seImm x kk =>
    fieldOp (encodeWord (.seImm x kk)) = 0x3 ∧
    fieldX (encodeWord (.seImm x kk)) = x ∧
    fieldKk (encodeWord (.seImm x kk)) = kk
  | .sneImm x kk =>
    fieldOp (encodeWord (.sneImm x kk)) = 0x4 ∧
    fieldX (encodeWord (.sneImm x kk)) = x ∧
    fieldKk (encodeWord (.sneImm x kk)) = kk
  | .seReg x y =>
    fieldOp (encodeWord (.seReg x y)) = 0x5 ∧
    fieldX (encodeWord (.seReg x y)) = x ∧
    fieldY (encodeWord (.seReg x y)) = y
  | .ldImm x kk =>
    fieldOp (encodeWord (.ldImm x kk)) = 0x6 ∧
    fieldX (encodeWord (.ldImm x kk)) = x ∧
    fieldKk (encodeWord (.ldImm x kk)) = kk
  | .addImm x kk =>
    fieldOp (encodeWord (.addImm x kk)) = 0x7 ∧
    fieldX (encodeWord (.addImm x kk)) = x ∧
    fieldKk (encodeWord (.addImm x kk)) = kk
  | .ldReg x y =>
    fieldOp (encodeWord (.ldReg x y)) = 0x8 ∧
    fieldX (encodeWord (.ldReg x y)) = x ∧
    fieldY (encodeWord (.ldReg x y)) = y
  | .orReg x y =>
    fieldOp (encodeWord (.orReg x y)) = 0x8 ∧
    fieldX (encodeWord (.orReg x y)) = x ∧
    fieldY (encodeWord (.orReg x y)) = y
  | .andReg x y =>
    fieldOp (encodeWord (.andReg x y)) = 0x8 ∧
    fieldX (encodeWord (.andReg x y)) = x ∧
    fieldY (encodeWord (.andReg x y)) = y
  | .xorReg x y =>
    fieldOp (encodeWord (.xorReg x y)) = 0x8 ∧
    fieldX (encodeWord (.xorReg x y)) = x ∧
    fieldY (encodeWord (.xorReg x y)) = y
  | .addReg x y =>
    fieldOp (encodeWord (.addReg x y)) = 0x8 ∧
    fieldX (encodeWord (.addReg x y)) = x ∧
    fieldY (encodeWord (.addReg x y)) = y
  | .subReg x y =>
    fieldOp (encodeWord (.subReg x y)) = 0x8 ∧
    fieldX (encodeWord (.subReg x y)) = x ∧
    fieldY (encodeWord (.subReg x y)) = y
  | .shr x y =>
    fieldOp (encodeWord (.shr x y)) = 0x8 ∧ fieldX (encodeWord (.shr x y)) = x ∧ fieldY (encodeWord (.shr x y)) = y
  | .subnReg x y =>
    fieldOp (encodeWord (.subnReg x y)) = 0x8 ∧
    fieldX (encodeWord (.subnReg x y)) = x ∧
    fieldY (encodeWord (.subnReg x y)) = y
  | .shl x y =>
    fieldOp (encodeWord (.shl x y)) = 0x8 ∧ fieldX (encodeWord (.shl x y)) = x ∧ fieldY (encodeWord (.shl x y)) = y
  | .sneReg x y =>
    fieldOp (encodeWord (.sneReg x y)) = 0x9 ∧
    fieldX (encodeWord (.sneReg x y)) = x ∧
    fieldY (encodeWord (.sneReg x y)) = y
  | .ldI nnn => fieldOp (encodeWord (.ldI nnn)) = 0xA ∧ fieldNnn (encodeWord (.ldI nnn)) = nnn
  | .jpV0 nnn => fieldOp (encodeWord (.jpV0 nnn)) = 0xB ∧ fieldNnn (encodeWord (.jpV0 nnn)) = nnn
  | .rnd x kk =>
    fieldOp (encodeWord (.rnd x kk)) = 0xC ∧
    fieldX (encodeWord (.rnd x kk)) = x ∧
    fieldKk (encodeWord (.rnd x kk)) = kk
  | .drw x y n =>
    fieldOp (encodeWord (.drw x y n)) = 0xD ∧
    fieldX (encodeWord (.drw x y n)) = x ∧
    fieldY (encodeWord (.drw x y n)) = y ∧
    fieldN (encodeWord (.drw x y n)) = n
  | .skp x => fieldOp (encodeWord (.skp x)) = 0xE ∧ fieldX (encodeWord (.skp x)) = x
  | .sknp x => fieldOp (encodeWord (.sknp x)) = 0xE ∧ fieldX (encodeWord (.sknp x)) = x
  | .ldVxDT x => fieldOp (encodeWord (.ldVxDT x)) = 0xF ∧ fieldX (encodeWord (.ldVxDT x)) = x
  | .ldVxK x => fieldOp (encodeWord (.ldVxK x)) = 0xF ∧ fieldX (encodeWord (.ldVxK x)) = x
  | .ldDTVx x => fieldOp (encodeWord (.ldDTVx x)) = 0xF ∧ fieldX (encodeWord (.ldDTVx x)) = x
  | .ldSTVx x => fieldOp (encodeWord (.ldSTVx x)) = 0xF ∧ fieldX (encodeWord (.ldSTVx x)) = x
  | .addI x => fieldOp (encodeWord (.addI x)) = 0xF ∧ fieldX (encodeWord (.addI x)) = x
  | .ldF x => fieldOp (encodeWord (.ldF x)) = 0xF ∧ fieldX (encodeWord (.ldF x)) = x
  | .ldB x => fieldOp (encodeWord (.ldB x)) = 0xF ∧ fieldX (encodeWord (.ldB x)) = x
  | .storeRegs x => fieldOp (encodeWord (.storeRegs x)) = 0xF ∧ fieldX (encodeWord (.storeRegs x)) = x
  | .loadRegs x => fieldOp (encodeWord (.loadRegs x)) = 0xF ∧ fieldX (encodeWord (.loadRegs x)) = x
  | .nop w => encodeWord (.nop w) = w

/-- A field cut out of a concatenation of four digits. -/
theorem fields_word4 (a b c d : Nibble) :
    fieldOp (word4 a b c d) = a ∧ fieldX (word4 a b c d) = b ∧ fieldY (word4 a b c d) = c ∧
      fieldN (word4 a b c d) = d := by
  refine ⟨?_, ?_, ?_, ?_⟩ <;> (ext k hk; simp [word4, fieldOp, fieldX, fieldY, fieldN]; grind)

/-- A field cut out of a digit, `x` and `kk`. -/
theorem fields_wordXkk (a x : Nibble) (kk : Byte) :
    fieldOp (wordXkk a x kk) = a ∧ fieldX (wordXkk a x kk) = x ∧ fieldKk (wordXkk a x kk) = kk := by
  refine ⟨?_, ?_, ?_⟩ <;> (ext k hk; simp [wordXkk, fieldOp, fieldX, fieldKk]; grind)

/-- A field cut out of a digit and `nnn`. -/
theorem fields_wordNnn (a : Nibble) (nnn : Addr12) :
    fieldOp (wordNnn a nnn) = a ∧ fieldNnn (wordNnn a nnn) = nnn := by
  refine ⟨?_, ?_⟩ <;> (ext k hk; simp [wordNnn, fieldOp, fieldNnn]; grind)

theorem cls : Statement .cls := (fields_word4 _ _ _ _).1
theorem ret : Statement .ret := (fields_word4 _ _ _ _).1
theorem jp (nnn : Addr12) : Statement (.jp nnn) := fields_wordNnn _ _
theorem call (nnn : Addr12) : Statement (.call nnn) := fields_wordNnn _ _
theorem seImm (x : Nibble) (kk : Byte) : Statement (.seImm x kk) := fields_wordXkk _ _ _
theorem sneImm (x : Nibble) (kk : Byte) : Statement (.sneImm x kk) := fields_wordXkk _ _ _
theorem seReg (x y : Nibble) : Statement (.seReg x y) := let h := fields_word4 _ _ _ _; ⟨h.1, h.2.1, h.2.2.1⟩
theorem ldImm (x : Nibble) (kk : Byte) : Statement (.ldImm x kk) := fields_wordXkk _ _ _
theorem addImm (x : Nibble) (kk : Byte) : Statement (.addImm x kk) := fields_wordXkk _ _ _
theorem ldReg (x y : Nibble) : Statement (.ldReg x y) := let h := fields_word4 _ _ _ _; ⟨h.1, h.2.1, h.2.2.1⟩
theorem orReg (x y : Nibble) : Statement (.orReg x y) := let h := fields_word4 _ _ _ _; ⟨h.1, h.2.1, h.2.2.1⟩
theorem andReg (x y : Nibble) : Statement (.andReg x y) := let h := fields_word4 _ _ _ _; ⟨h.1, h.2.1, h.2.2.1⟩
theorem xorReg (x y : Nibble) : Statement (.xorReg x y) := let h := fields_word4 _ _ _ _; ⟨h.1, h.2.1, h.2.2.1⟩
theorem addReg (x y : Nibble) : Statement (.addReg x y) := let h := fields_word4 _ _ _ _; ⟨h.1, h.2.1, h.2.2.1⟩
theorem subReg (x y : Nibble) : Statement (.subReg x y) := let h := fields_word4 _ _ _ _; ⟨h.1, h.2.1, h.2.2.1⟩
theorem shr (x y : Nibble) : Statement (.shr x y) := let h := fields_word4 _ _ _ _; ⟨h.1, h.2.1, h.2.2.1⟩
theorem subnReg (x y : Nibble) : Statement (.subnReg x y) := let h := fields_word4 _ _ _ _; ⟨h.1, h.2.1, h.2.2.1⟩
theorem shl (x y : Nibble) : Statement (.shl x y) := let h := fields_word4 _ _ _ _; ⟨h.1, h.2.1, h.2.2.1⟩
theorem sneReg (x y : Nibble) : Statement (.sneReg x y) := let h := fields_word4 _ _ _ _; ⟨h.1, h.2.1, h.2.2.1⟩
theorem ldI (nnn : Addr12) : Statement (.ldI nnn) := fields_wordNnn _ _
theorem jpV0 (nnn : Addr12) : Statement (.jpV0 nnn) := fields_wordNnn _ _
theorem rnd (x : Nibble) (kk : Byte) : Statement (.rnd x kk) := fields_wordXkk _ _ _
theorem drw (x y n : Nibble) : Statement (.drw x y n) := fields_word4 _ _ _ _
theorem skp (x : Nibble) : Statement (.skp x) := let h := fields_word4 _ _ _ _; ⟨h.1, h.2.1⟩
theorem sknp (x : Nibble) : Statement (.sknp x) := let h := fields_word4 _ _ _ _; ⟨h.1, h.2.1⟩
theorem ldVxDT (x : Nibble) : Statement (.ldVxDT x) := let h := fields_word4 _ _ _ _; ⟨h.1, h.2.1⟩
theorem ldVxK (x : Nibble) : Statement (.ldVxK x) := let h := fields_word4 _ _ _ _; ⟨h.1, h.2.1⟩
theorem ldDTVx (x : Nibble) : Statement (.ldDTVx x) := let h := fields_word4 _ _ _ _; ⟨h.1, h.2.1⟩
theorem ldSTVx (x : Nibble) : Statement (.ldSTVx x) := let h := fields_word4 _ _ _ _; ⟨h.1, h.2.1⟩
theorem addI (x : Nibble) : Statement (.addI x) := let h := fields_word4 _ _ _ _; ⟨h.1, h.2.1⟩
theorem ldF (x : Nibble) : Statement (.ldF x) := let h := fields_word4 _ _ _ _; ⟨h.1, h.2.1⟩
theorem ldB (x : Nibble) : Statement (.ldB x) := let h := fields_word4 _ _ _ _; ⟨h.1, h.2.1⟩
theorem storeRegs (x : Nibble) : Statement (.storeRegs x) := let h := fields_word4 _ _ _ _; ⟨h.1, h.2.1⟩
theorem loadRegs (x : Nibble) : Statement (.loadRegs x) := let h := fields_word4 _ _ _ _; ⟨h.1, h.2.1⟩
theorem nop (w : Word) : Statement (.nop w) := rfl

end Sys2Proof.Laws.FieldsInPlace
end

