-- ==== Sys2Proof/Tests/Slice0.lean ====
section
/-! SUPPORT. Tests: ill-formed terms, decoding against R50's words, one step of each instruction against the vectors of
95_test_vectors.md (their numbers stand in the comments), and a witness for the hypotheses of each statement. -/

namespace Sys2Proof.Tests

open Sys2Proof Sys2Proof.Machine

/-! ### Well-formedness and decoding -/

/-- Words that are some instruction's own are no default no-op's (R52). -/
theorem test_ill_formed_nop :
    wellFormed (.nop 0x00E0) = false ∧ wellFormed (.nop 0x00EE) = false ∧ wellFormed (.nop 0x1234) = false ∧
    wellFormed (.nop 0x5120) = false ∧ wellFormed (.nop 0x8126) = false ∧ wellFormed (.nop 0x9120) = false ∧
    wellFormed (.nop 0xE19E) = false ∧ wellFormed (.nop 0xF165) = false := by decide

/-- Words of R52's groups are the default no-op's. -/
theorem test_well_formed_nop :
    wellFormed (.nop 0x0000) = true ∧ wellFormed (.nop 0x00EF) = true ∧ wellFormed (.nop 0x5121) = true ∧
    wellFormed (.nop 0x8128) = true ∧ wellFormed (.nop 0x9121) = true ∧ wellFormed (.nop 0xE19F) = true ∧
    wellFormed (.nop 0xF156) = true := by decide

/-- Rows 1 to 9 of R50, bit by bit. -/
theorem test_decode_control :
    decodeWord 0b0000000011100000 = .cls ∧ decodeWord 0b0000000011101110 = .ret ∧
    decodeWord 0b0001101010111100 = .jp 0xABC ∧ decodeWord 0b0010101010111100 = .call 0xABC ∧
    decodeWord 0b0011101000000101 = .seImm 0xA 0x05 ∧ decodeWord 0b0100101000000101 = .sneImm 0xA 0x05 ∧
    decodeWord 0b0101000100100000 = .seReg 1 2 ∧ decodeWord 0b0110000000000101 = .ldImm 0 0x05 ∧
    decodeWord 0b0111000011111111 = .addImm 0 0xFF := by decide

/-- Rows 10 to 18 of R50, bit by bit. -/
theorem test_decode_alu :
    decodeWord 0b1000000100100000 = .ldReg 1 2 ∧ decodeWord 0b1000000100100001 = .orReg 1 2 ∧
    decodeWord 0b1000000100100010 = .andReg 1 2 ∧ decodeWord 0b1000000100100011 = .xorReg 1 2 ∧
    decodeWord 0b1000111100010100 = .addReg 0xF 1 ∧ decodeWord 0b1000000000010101 = .subReg 0 1 ∧
    decodeWord 0b1000000000010110 = .shr 0 1 ∧ decodeWord 0b1000000000010111 = .subnReg 0 1 ∧
    decodeWord 0b1000000000011110 = .shl 0 1 := by decide

/-- Rows 19 to 25 of R50, bit by bit. -/
theorem test_decode_middle :
    decodeWord 0b1001000100100000 = .sneReg 1 2 ∧ decodeWord 0b1010001000110000 = .ldI 0x230 ∧
    decodeWord 0b1011001100000000 = .jpV0 0x300 ∧ decodeWord 0b1100000100001111 = .rnd 1 0x0F ∧
    decodeWord 0b1101000000010101 = .drw 0 1 5 ∧ decodeWord 0b1110000010011110 = .skp 0 ∧
    decodeWord 0b1110000010100001 = .sknp 0 := by decide

/-- Rows 26 to 34 of R50, bit by bit. -/
theorem test_decode_f :
    decodeWord 0b1111000100000111 = .ldVxDT 1 ∧ decodeWord 0b1111001100001010 = .ldVxK 3 ∧
    decodeWord 0b1111000000010101 = .ldDTVx 0 ∧ decodeWord 0b1111000000011000 = .ldSTVx 0 ∧
    decodeWord 0b1111000000011110 = .addI 0 ∧ decodeWord 0b1111000000101001 = .ldF 0 ∧
    decodeWord 0b1111000000110011 = .ldB 0 ∧ decodeWord 0b1111001001010101 = .storeRegs 2 ∧
    decodeWord 0b1111000101100101 = .loadRegs 1 := by decide

/-- Row 35 of R50: words next to an instruction's own. -/
theorem test_decode_default :
    decodeWord 0b0000000000000000 = .nop 0x0000 ∧ decodeWord 0b0101000100100001 = .nop 0x5121 ∧
    decodeWord 0b1000000100101000 = .nop 0x8128 ∧ decodeWord 0b1110000110011111 = .nop 0xE19F ∧
    decodeWord 0b1111000101010110 = .nop 0xF156 := by decide

/-- The `mask` and `match` columns of R50, rows 1 to 18. -/
theorem test_columns_low :
    ((rowsControl ++ rowsAlu).map fun r => (patternMask r.pattern, patternBits r.pattern)) =
      [(0xFFFF, 0x00E0), (0xFFFF, 0x00EE), (0xF000, 0x1000), (0xF000, 0x2000), (0xF000, 0x3000), (0xF000, 0x4000),
       (0xF00F, 0x5000), (0xF000, 0x6000), (0xF000, 0x7000), (0xF00F, 0x8000), (0xF00F, 0x8001), (0xF00F, 0x8002),
       (0xF00F, 0x8003), (0xF00F, 0x8004), (0xF00F, 0x8005), (0xF00F, 0x8006), (0xF00F, 0x8007), (0xF00F, 0x800E)] := by
  decide

/-- The `mask` and `match` columns of R50, rows 19 to 34. -/
theorem test_columns_high :
    ((rowsMiddle ++ rowsF).map fun r => (patternMask r.pattern, patternBits r.pattern)) =
      [(0xF00F, 0x9000), (0xF000, 0xA000), (0xF000, 0xB000), (0xF000, 0xC000), (0xF000, 0xD000), (0xF0FF, 0xE09E),
       (0xF0FF, 0xE0A1), (0xF0FF, 0xF007), (0xF0FF, 0xF00A), (0xF0FF, 0xF015), (0xF0FF, 0xF018), (0xF0FF, 0xF01E),
       (0xF0FF, 0xF029), (0xF0FF, 0xF033), (0xF0FF, 0xF055), (0xF0FF, 0xF065)] := by
  decide

/-- R45, R54: two bytes, high byte first; one byte is no instruction. -/
theorem test_decode_bytes :
    decode [0x60, 0x05, 0xA2] = .instr (.ldImm 0 5) [0xA2] ∧ decode [0x60] = .truncated 1 ∧ decode [] = .truncated 0 ∧
    encode (.drw 0 1 5) = [0xD0, 0x15] ∧ decodeTableWord 16 0xA230 = some (.ldI 0x230) := by decide

/-! ### One step -/

/-- The reset state, edited, with a word at 0x200. -/
def start (w : Word) (edit : State → State) : State := (edit State.reset).placeWord w

/-- One observation of the state after one step, if there is one. -/
def after {α : Type} (s : State) (f : State → α) : Option α :=
  match step s with
  | .next t => some (f t)
  | .fault _ => none
  | .refused _ => none

/-- General registers set. -/
def regs (l : List (Nibble × Byte)) (s : State) : State := l.foldl (fun t p => t.setReg p.1 p.2) s

/-- T1. -/
theorem test_jp : after (start 0x1ABC id) (·.pc) = some 0xABC := by decide

/-- T4. -/
theorem test_call_last : after (start 0x2ABC fun s => { s with sp := 15 })
    (fun t => (t.pc, t.sp, t.stack[15], t.stack[14])) = some (0xABC, 16, 0x202, 0) := by decide

/-- T5. -/
theorem test_call_overflow : after (start 0x2ABC fun s => { s with sp := 16 })
    (fun t => (t.pc, t.sp, t.stack, t.fault)) =
      some (0x200, 16, Vector.replicate 16 0, some .stackOverflow) := by decide

/-- T8. -/
theorem test_ret : after (start 0x00EE fun s => { s with sp := 16, stack := s.stack.set 15 0xABC })
    (fun t => (t.pc, t.sp, t.stack[15])) = some (0xABC, 15, 0xABC) := by decide

/-- T7. -/
theorem test_ret_underflow : after (start 0x00EE id) (fun t => (t.pc, t.sp, t.fault)) =
    some (0x200, 0, some .stackUnderflow) := by decide

/-- T10. -/
theorem test_jpV0_no_wrap : after (start 0xBFFF (regs [(0, 0xFF)])) (·.pc) = some 0x10FE := by decide

/-- T11. -/
theorem test_seImm_equal : after (start 0x3A05 (regs [(0xA, 5)])) (·.pc) = some 0x204 := by decide

/-- T12. -/
theorem test_seImm_unequal : after (start 0x3A05 (regs [(0xA, 6)])) (·.pc) = some 0x202 := by decide

/-- T13. -/
theorem test_sneImm_equal : after (start 0x4A05 (regs [(0xA, 5)])) (·.pc) = some 0x202 := by decide

/-- T14. -/
theorem test_sneImm_unequal : after (start 0x4A05 (regs [(0xA, 6)])) (·.pc) = some 0x204 := by decide

/-- T15. -/
theorem test_seReg_equal : after (start 0x5120 (regs [(1, 7), (2, 7)])) (·.pc) = some 0x204 := by decide

/-- T16. -/
theorem test_seReg_unequal : after (start 0x5120 (regs [(1, 7), (2, 8)])) (·.pc) = some 0x202 := by decide

/-- T18. -/
theorem test_sneReg_unequal : after (start 0x9120 (regs [(1, 7), (2, 8)])) (·.pc) = some 0x204 := by decide

/-- T19. -/
theorem test_sneReg_equal : after (start 0x9120 (regs [(1, 7), (2, 7)])) (·.pc) = some 0x202 := by decide

/-- T21. -/
theorem test_nop : after (start 0x0000 fun s => { s with dt := 2, st := 1 }) (fun t => (t.pc, t.dt, t.st, beep t)) =
    some (0x202, 1, 0, false) := by decide

/-- A2. -/
theorem test_ldImm : after (start 0x6FAB id) (fun t => (t.reg vf, t.pc)) = some (0xAB, 0x202) := by decide

/-- A3. -/
theorem test_addImm : after (start 0x7001 (regs [(0, 0xFF), (vf, 7)])) (fun t => (t.reg 0, t.reg vf)) =
    some (0, 7) := by decide

/-- A6. -/
theorem test_ldReg : after (start 0x8120 (regs [(2, 0x3C)])) (fun t => (t.reg 1, t.reg 2)) =
    some (0x3C, 0x3C) := by decide

/-- A7. -/
theorem test_or : after (start 0x8121 (regs [(1, 0x0F), (2, 0xF0), (vf, 9)])) (fun t => (t.reg 1, t.reg vf)) =
    some (0xFF, 9) := by decide

/-- A8. -/
theorem test_and : after (start 0x8122 (regs [(1, 0x3C), (2, 0x0F)])) (·.reg 1) = some 0x0C := by decide

/-- A9. -/
theorem test_xor : after (start 0x8123 (regs [(1, 0xFF), (2, 0x0F)])) (·.reg 1) = some 0xF0 := by decide

/-- A11. -/
theorem test_add_carry : after (start 0x8014 (regs [(0, 0xFF), (1, 1)])) (fun t => (t.reg 0, t.reg vf)) =
    some (0, 1) := by decide

/-- A14: the flag overwrites the result. -/
theorem test_add_to_flag : after (start 0x8F14 (regs [(vf, 0xFF), (1, 2)])) (·.reg vf) = some 1 := by decide

/-- A17. -/
theorem test_sub_borrow : after (start 0x8015 (regs [(0, 3), (1, 5), (vf, 1)])) (fun t => (t.reg 0, t.reg vf)) =
    some (0xFE, 0) := by decide

/-- A18: the comparison is strict. -/
theorem test_sub_equal : after (start 0x8015 (regs [(0, 7), (1, 7), (vf, 1)])) (fun t => (t.reg 0, t.reg vf)) =
    some (0, 0) := by decide

/-- A21: `y` is ignored. -/
theorem test_shr : after (start 0x8016 (regs [(0, 4), (1, 0xFF), (vf, 1)]))
    (fun t => (t.reg 0, t.reg 1, t.reg vf)) = some (2, 0xFF, 0) := by decide

/-- A22. -/
theorem test_shr_flag : after (start 0x8F06 (regs [(vf, 3)])) (·.reg vf) = some 1 := by decide

/-- A23. -/
theorem test_subn : after (start 0x8017 (regs [(0, 3), (1, 5)])) (fun t => (t.reg 0, t.reg vf)) =
    some (2, 1) := by decide

/-- A24. -/
theorem test_subn_borrow : after (start 0x8017 (regs [(0, 5), (1, 3), (vf, 1)])) (fun t => (t.reg 0, t.reg vf)) =
    some (0xFE, 0) := by decide

/-- A26. -/
theorem test_shl : after (start 0x800E (regs [(0, 0x81)])) (fun t => (t.reg 0, t.reg vf)) = some (2, 1) := by decide

/-- A27. -/
theorem test_shl_y_ignored : after (start 0x801E (regs [(0, 0x40), (1, 0xFF), (vf, 1)]))
    (fun t => (t.reg 0, t.reg 1, t.reg vf)) = some (0x80, 0xFF, 0) := by decide

/-- A29, and one byte of the host's sequence consumed (R74). -/
theorem test_rnd : after (start 0xC10F fun s => { s with entropy := [0xA7, 0x55] })
    (fun t => (t.reg 1, t.entropy)) = some (0x07, [0x55]) := by decide

/-- M2. -/
theorem test_ldI : after (start 0xAFFF fun s => { s with i := 0xFFFF }) (·.i) = some 0x0FFF := by decide

/-- M3. -/
theorem test_addI : after (start 0xF01E fun s => { regs [(0, 5), (vf, 7)] s with i := 0x0FFE })
    (fun t => (t.i, t.reg vf)) = some (0x1003, 7) := by decide

/-- M4. -/
theorem test_addI_wraps : after (start 0xF01E fun s => { regs [(0, 2)] s with i := 0xFFFF }) (·.i) =
    some 1 := by decide

/-- M9. -/
theorem test_ldF : after (start 0xF029 (regs [(0, 0xFF)])) (·.i) = some 0x4FB := by decide

/-- M10. -/
theorem test_ldB : after (start 0xF033 fun s => { regs [(0, 0xE7)] s with i := 0x300 })
    (fun t => t.mem.readBytes 0x300 4) = some [2, 3, 1, 0] := by decide

/-- M13. -/
theorem test_ldB_bounds : after
    (start 0xF033 fun s => { regs [(0, 0xFF)] s with i := 0xFFE, mem := [(0xFFE, 0x11), (0xFFF, 0x22)] })
    (fun t => (t.mem.readBytes 0xFFE 2, t.pc, t.fault)) =
      some ([0x11, 0x22], 0x200, some .memOutOfBounds) := by decide

/-- M15. -/
theorem test_storeRegs : after
    (start 0xF255 fun s => { regs [(0, 1), (1, 2), (2, 3), (3, 4)] s with i := 0x300, mem := [(0x303, 0x77)] })
    (fun t => (t.mem.readBytes 0x300 4, t.i)) = some ([1, 2, 3, 0x77], 0x300) := by decide

/-- M18: a range that ends at 0x1000 is refused whole. -/
theorem test_storeRegs_bounds : after (start 0xFF55 fun s => { regs [(0, 0x10)] s with i := 0xFF1 })
    (fun t => (t.mem.read 0xFF1, t.fault)) = some (0, some .memOutOfBounds) := by decide

/-- M19. -/
theorem test_loadRegs : after
    (start 0xF165 fun s =>
      { regs [(2, 0x99)] s with i := 0x300, mem := [(0x300, 0xAA), (0x301, 0xBB), (0x302, 0xCC)] })
    (fun t => (t.reg 0, t.reg 1, t.reg 2, t.i)) = some (0xAA, 0xBB, 0x99, 0x300) := by decide

/-- M21. -/
theorem test_loadRegs_bounds : after
    (start 0xF165 fun s => { regs [(0, 5), (1, 6)] s with i := 0xFFF, mem := [(0xFFF, 0x42)] })
    (fun t => (t.reg 0, t.reg 1, t.fault)) = some (5, 6, some .memOutOfBounds) := by decide

/-- The columns that are on in a row. -/
def lit (t : State) (row : Fin 32) : List Nat := ((List.finRange 64).filter (t.fb.get row)).map Fin.val

/-- G1. -/
theorem test_cls : after (start 0x00E0 fun s => { regs [(vf, 1)] s with fb := s.fb.put 31 63 true })
    (fun t => (lit t 31, t.reg vf)) = some ([], 1) := by decide

/-- G2: the sprite wraps at the right edge. -/
theorem test_drw_wraps : after
    (start 0xD011 fun s => { regs [(0, 60)] s with i := 0x300, mem := [(0x300, 0xFF)] })
    (fun t => (lit t 0, t.reg vf)) = some ([0, 1, 2, 3, 60, 61, 62, 63], 0) := by decide

/-- G5: a cell that was on is turned off, and collides. -/
theorem test_drw_collides : after
    (start 0xD011 fun s => { s with i := 0x300, mem := [(0x300, 0xC0)], fb := s.fb.put 0 1 true })
    (fun t => (lit t 0, t.reg vf)) = some ([0], 1) := by decide

/-- K1. -/
theorem test_skp : after (start 0xE09E fun s => { regs [(0, 0xA)] s with key := 0x0400 }) (·.pc) =
    some 0x204 := by decide

/-- K5. -/
theorem test_skp_index : after (start 0xE09E (regs [(0, 0x10)])) (fun t => (t.pc, t.fault)) =
    some (0x200, some .keyIndexOutOfRange) := by decide

/-- K4. -/
theorem test_sknp : after (start 0xE0A1 fun s => { regs [(0, 0xA)] s with key := 0x0400 }) (·.pc) =
    some 0x202 := by decide

/-- K6: the tick precedes the fault. -/
theorem test_sknp_index : after (start 0xE0A1 fun s => { regs [(0, 0xFF)] s with dt := 5 })
    (fun t => (t.pc, t.dt, t.fault)) = some (0x200, 4, some .keyIndexOutOfRange) := by decide

/-- K8. -/
theorem test_ldVxK_waits : after (start 0xF30A fun s => { regs [(3, 0x55)] s with dt := 2, st := 2 })
    (fun t => (t.pc, t.reg 3, t.dt, t.st, beep t)) = some (0x200, 0x55, 1, 1, true) := by decide

/-- K9. -/
theorem test_ldVxK : after (start 0xF30A fun s => { regs [(3, 0x55)] s with key := 0x0080 })
    (fun t => (t.pc, t.reg 3)) = some (0x202, 7) := by decide

/-- K12: the ticked value is read. -/
theorem test_ldVxDT : after (start 0xF107 fun s => { s with dt := 3 }) (fun t => (t.dt, t.reg 1)) =
    some (2, 2) := by decide

/-- K15: the write replaces the ticked value. -/
theorem test_ldDTVx : after (start 0xF015 fun s => { regs [(0, 3)] s with dt := 9 }) (·.dt) = some 3 := by decide

/-- K17. -/
theorem test_ldSTVx : after (start 0xF018 (regs [(0, 2)])) (fun t => (t.st, beep t)) = some (2, true) := by decide

/-! ### The cycle and the host -/

/-- X1: the last address a fetch can succeed at. -/
theorem test_fetch_last : after
    { State.reset with pc := 0xFFE, mem := [(0xFFE, 0x12)], dt := 4, st := 4 } (fun t => (t.pc, t.dt, t.st)) =
      some (0x200, 3, 3) := by decide

/-- X2: the second byte does not exist; the timers have not ticked. -/
theorem test_fetch_beyond : after { State.reset with pc := 0xFFF, dt := 4, st := 4 }
    (fun t => (t.pc, t.dt, t.st, t.fault)) = some (0xFFF, 4, 4, some .memOutOfBounds) := by decide

/-- X4: an odd `pc` is legal. -/
theorem test_fetch_odd : after
    { State.reset with
      pc := 0x201, mem := [(0x200, 0xAA), (0x201, 0x61), (0x202, 0x07), (0x203, 0xBB)] }
    (fun t => (t.reg 1, t.pc)) = some (7, 0x203) := by decide

/-- X7, T5: a latched fault stops every further cycle, and `run_cycle` returns the same cause. -/
theorem test_latched :
    after { State.reset with fault := some .stackOverflow } (·.pc) = none ∧
    (runCycle 0 { State.reset with fault := some .stackOverflow }).2 = .failure .stackOverflow none ∧
    (runCycle 0 (start 0x2ABC fun s => { s with sp := 16 })).2 = .failure .stackOverflow (some 0x200) := by decide

/-- L2: one byte too long. -/
theorem test_load_overflow : hostLoad (List.replicate 3585 0xAB) State.reset =
    (State.reset, .programLoadOverflow) := if_pos (by rw [List.length_replicate]; decide)

/-- L2, T5: the codes of R160's table that the host is answered. -/
theorem test_failure_codes :
    (loadCause .programLoadOverflow).map failureCode = some 5 ∧
    (cycleCause (runCycle 0 (start 0x2ABC fun s => { s with sp := 16 })).2).map failureCode = some 1 := by decide

/-- R164: a latched state at a jump to itself is no end of a run. -/
theorem test_latched_not_halted : ¬ ({ start 0x1200 id with fault := some .stackOverflow } : State).Halted :=
  fun h => nomatch h.1

/-- L4: `load` only copies. -/
theorem test_load_twice :
    (hostLoad [9, 9] (hostLoad [1, 2, 3, 4] State.reset).1).1.mem.readBytes 0x200 5 = [9, 9, 3, 4, 0] := by decide

/-- L5. -/
theorem test_keys :
    (hostKeyDown 3 State.reset).key = 0x0008 ∧ hostKeyUp 3 (hostKeyDown 3 State.reset) = State.reset := by decide

/-- `withFetchWord` puts the word where the next step fetches it. -/
theorem test_withFetchWord :
    (State.reset.withFetchWord 16 0x6107).fetch = some 0x6107 ∧
    after (State.reset.withFetchWord 16 0x6107) (·.reg 1) = some 7 := by decide

/-! ### Witnesses: the hypotheses of each statement can be met -/

/-- DecodeOfEncode. -/
theorem witness_DecodeOfEncode : wellFormed (.nop 0x0000) = true ∧ wellFormed (.drw 0xF 0xF 0xF) = true := by decide

/-- A state at the last fetchable address, holding `DRW V15,V15,15`. -/
def lastWord : State := { State.reset with pc := 0xFFE, mem := [(0xFFE, 0xDF), (0xFFF, 0xFF)] }

/-- StepRunsTheDecodedInstruction. -/
theorem witness_StepRunsTheDecodedInstruction :
    lastWord.fault = none ∧ lastWord.pc.toNat ≤ 0xFFE ∧
    decode [lastWord.mem.read lastWord.pc.toNat, lastWord.mem.read (lastWord.pc.toNat + 1)] =
      .instr (.drw 0xF 0xF 0xF) [] := by decide

/-- FetchBeyondMemoryLatches, and the failed fetch of FailureCarriesItsInfo. -/
theorem witness_failed_fetch :
    let s := { State.reset with pc := 0xFFF }
    s.fault = none ∧ 0xFFF ≤ s.pc.toNat ∧ s.fetch = none := by decide

/-- LatchedFaultStopsTheMachine, OnlyResetClearsTheLatch. -/
theorem witness_latched :
    ({ State.reset with fault := some .memOutOfBounds } : State).fault = some .memOutOfBounds ∧
    HostOp.runCycle 0 ≠ .construct ∧ HostOp.runCycle 0 ≠ .reset := by decide

/-- TimersTickOncePerCycle, one per arm; that the step answers is witness_ticks'. -/
theorem witness_TimersTickOncePerCycle :
    ((start 0xF015 id).fault = none ∧ (start 0xF015 id).fetch = some 0xF015 ∧ decodeWord 0xF015 = .ldDTVx 0) ∧
    ((start 0xFF18 id).fault = none ∧ (start 0xFF18 id).fetch = some 0xFF18 ∧ decodeWord 0xFF18 = .ldSTVx 0xF) ∧
    ((start 0xF107 id).fault = none ∧ (start 0xF107 id).fetch = some 0xF107 ∧ decodeWord 0xF107 = .ldVxDT 1) ∧
    (start 0x0000 id).fault = none ∧ (start 0x0000 id).fetch = some 0x0000 ∧ decodeWord 0x0000 = .nop 0 := by decide

/-- TimersTickOncePerCycle: the four steps answer a next state. -/
theorem witness_ticks :
    (∃ t, step (start 0xF015 id) = .next t) ∧ (∃ t, step (start 0xFF18 id) = .next t) ∧
    (∃ t, step (start 0xF107 id) = .next t) ∧ ∃ t, step (start 0x0000 id) = .next t :=
  ⟨⟨_, rfl⟩, ⟨_, rfl⟩, ⟨_, rfl⟩, ⟨_, rfl⟩⟩

/-- CallPushesOrOverflows and RetPopsOrUnderflows, at the ends of each clause's range. -/
theorem witness_stack :
    State.reset.sp.val < 16 ∧ ({ State.reset with sp := 15 } : State).sp.val < 16 ∧
    ({ State.reset with sp := 16 } : State).sp.val = 16 ∧
    ({ State.reset with sp := 1 } : State).sp.val = (0 : Fin 16).val + 1 ∧
    ({ State.reset with sp := 16 } : State).sp.val = (15 : Fin 16).val + 1 ∧ State.reset.sp.val = 0 := by decide

/-- RetPopsOrUnderflows, a call and its return: the state the call leaves is such a `u`. -/
theorem witness_call_then_ret :
    ∃ s t : State, s.sp.val < 16 ∧ exec (.call 0x300) s = .next t ∧
      t.sp = t.sp ∧ ∀ k : Fin 16, k.val = s.sp.val → t.stack[k] = t.stack[k] :=
  ⟨{ State.reset with sp := 15 }, _, by decide, rfl, rfl, fun _ _ => rfl⟩

/-- UnrecognizedWordOnlyAdvances, a cycle: `FF66` at the reset `pc`. -/
theorem witness_UnrecognizedWordOnlyAdvances :
    unrecognized 0xFF66 = true ∧ (start 0xFF66 id).fault = none ∧ (start 0xFF66 id).fetch = some 0xFF66 := by decide

/-- RandomConsumesOneEntropyByte. -/
theorem witness_entropy : ({ State.reset with entropy := [0xA7] } : State).entropy = 0xA7 :: [] := rfl

/-- DecimalDigitsStored, RegistersStored, RegistersLoaded, DrawFlipsTheSpritesCells: the last addresses in bounds. -/
theorem witness_in_bounds :
    ({ State.reset with i := 0xFFD } : State).i.toNat + 2 ≤ 0xFFF ∧
    ({ State.reset with i := 0xFF0 } : State).i.toNat + (15 : Nibble).toNat ≤ 0xFFF ∧
    ({ State.reset with i := 0xFFF } : State).i.toNat + (0 : Nibble).toNat ≤ 0xFFF ∧
    ({ State.reset with i := 0xFFF } : State).i.toNat + (1 : Nibble).toNat - 1 ≤ 0xFFF ∧
    (0 : Nibble).toNat = 0 := by decide

/-- MemoryRangeFaults: the first addresses out of bounds. -/
theorem witness_out_of_bounds :
    ({ State.reset with i := 0xFFE } : State).i.toNat + 2 > 0xFFF ∧
    ({ State.reset with i := 0xFF1 } : State).i.toNat + (15 : Nibble).toNat > 0xFFF ∧
    ({ State.reset with i := 0x1000 } : State).i.toNat + (0 : Nibble).toNat > 0xFFF ∧
    1 ≤ (1 : Nibble).toNat ∧ ({ State.reset with i := 0x1000 } : State).i.toNat + (1 : Nibble).toNat - 1 > 0xFFF := by
  decide

/-- StoreIsSeenByTheNextFetch. -/
theorem witness_StoreIsSeenByTheNextFetch :
    let s := { State.reset with i := 0x202 }
    1 ≤ (1 : Nibble).toNat ∧ s.i = s.pc + 2 ∧ s.i.toNat + (1 : Nibble).toNat ≤ 0xFFF := by decide

/-- SpriteInvolutionAndWrap, the involution: the first draw's own framebuffer in the old state is such a `u`. -/
theorem witness_involution :
    let s := { State.reset with i := 0xFFF }
    ∃ t u : State, s.i.toNat + (1 : Nibble).toNat - 1 ≤ 0xFFF ∧ exec (.drw 0xF 0 1) s = .next t ∧ u.fb = t.fb ∧
      u.reg 0xF = s.reg 0xF ∧ u.reg 0 = s.reg 0 ∧ u.i = s.i ∧ ∀ a, u.mem.read a = s.mem.read a :=
  ⟨_, { State.reset with i := 0xFFF, fb := (drawSprite 0xF 0 _ { State.reset with i := 0xFFF }).fb },
    by decide, rfl, rfl, rfl, rfl, rfl, fun _ => rfl⟩

/-- SpriteInvolutionAndWrap, the wrap-around. -/
theorem witness_wrap :
    let s := { regs [(0, 60)] State.reset with i := 0xFFF, mem := [(0xFFF, 0xFF)] }
    (s.reg 0).toNat = 60 ∧ (s.reg 1).toNat = 0 ∧ s.i.toNat ≤ 0xFFF ∧ s.mem.read s.i.toNat = 0xFF ∧
      ∀ col, s.fb.get 0 col = false := by decide

/-- KeySkips: the last key, and the first value that is none. -/
theorem witness_KeySkips :
    ((regs [(0, 15)] State.reset).reg 0).toNat = (15 : Nibble).toNat ∧
    ((regs [(0, 16)] State.reset).reg 0).toNat > 15 := by decide

/-- KeyWaitTakesAPressedKey: several keys, and none. -/
theorem witness_KeyWait : ({ State.reset with key := 0x1208 } : State).key ≠ 0 ∧ State.reset.key = 0 := by decide

/-- WaitingRunsTheTimersDown. -/
theorem witness_WaitingRunsTheTimersDown :
    let s := start 0xF30A fun s => { s with dt := 5 }
    s.fault = none ∧ s.fetch = some 0xF30A ∧ decodeWord 0xF30A = .ldVxK 3 ∧ s.key = 0 := by decide

/-- InstructionsWriteOnlyTheirOwn. -/
theorem witness_exec : ∃ t, exec (.addReg 0xF 1) State.reset = .next t := ⟨_, rfl⟩

/-- EveryInstructionAnswersANextState, StepKeepsTheInvariant, HostOperationsKeepTheInvariant. -/
theorem witness_invariant : State.reset.fault = none ∧ State.reset.Inv ∧ ∃ t, step State.reset = .next t :=
  ⟨rfl, by decide, _, rfl⟩

/-- FaultsExactlyUnderTheirConditions, FailureCarriesItsInfo: each row of the condition, at its boundary. -/
theorem witness_faultCondition :
    faultCondition { State.reset with sp := 16 } (.call 0x300) .stackOverflow ∧
    faultCondition State.reset .ret .stackUnderflow ∧
    faultCondition { State.reset with i := 0xFFF } (.drw 0 0 2) .memOutOfBounds ∧
    faultCondition { State.reset with i := 0xFFE } (.ldB 0) .memOutOfBounds ∧
    faultCondition { State.reset with i := 0xFFF } (.storeRegs 1) .memOutOfBounds ∧
    faultCondition { State.reset with i := 0xFFF } (.loadRegs 1) .memOutOfBounds ∧
    faultCondition (regs [(0, 16)] State.reset) (.skp 0) .keyIndexOutOfRange ∧
    faultCondition (regs [(0, 255)] State.reset) (.sknp 0) .keyIndexOutOfRange := by
  unfold faultCondition; decide

/-- FailureCarriesItsInfo, a fetched `RET` and `CALL`: the stack faults. -/
theorem witness_stack_info :
    ((start 0x00EE id).fault = none ∧ (start 0x00EE id).fetch = some 0x00EE ∧ decodeWord 0x00EE = .ret ∧
      faultCondition (start 0x00EE id) .ret .stackUnderflow) ∧
    let s := start 0x2300 fun s => { s with sp := 16 }
    s.fault = none ∧ s.fetch = some 0x2300 ∧ decodeWord 0x2300 = .call 0x300 ∧
      faultCondition s (.call 0x300) .stackOverflow := by
  unfold faultCondition; decide

/-- FailureCarriesItsInfo, a fetched `LD [I],V0` and `SKP V0`: a data access and a key index. -/
theorem witness_access_info :
    (let s := start 0xF055 fun s => { s with i := 0x1000 }
     s.fault = none ∧ s.fetch = some 0xF055 ∧ decodeWord 0xF055 = .storeRegs 0 ∧
      faultCondition s (.storeRegs 0) .memOutOfBounds) ∧
    let s := start 0xE09E (regs [(0, 16)])
    s.fault = none ∧ s.fetch = some 0xE09E ∧ decodeWord 0xE09E = .skp 0 ∧
      faultCondition s (.skp 0) .keyIndexOutOfRange := by
  unfold faultCondition; decide

/-- FaultsExactlyUnderTheirConditions (its second part), FaultsArePrecise: a raising instruction and a failed fetch. -/
theorem witness_raised :
    (∃ t, exec .ret State.reset = .next t ∧ t.fault = some .stackUnderflow) ∧
    (∃ t, step (start 0x00EE id) = .next t ∧ t.fault = some .stackUnderflow ∧ (start 0x00EE id).fetch ≠ none) ∧
    ∃ t, step { State.reset with pc := 0xFFF } = .next t ∧ t.fault = some .memOutOfBounds :=
  ⟨⟨_, rfl, rfl⟩, ⟨_, rfl, rfl, by decide⟩, ⟨_, rfl, rfl⟩⟩

/-- OnlyTheHostWritesTheKeypad: an operation that is neither a reset nor a key event. -/
theorem witness_keypad :
    HostOp.load [1] ≠ .construct ∧ HostOp.load [1] ≠ .reset ∧ (∀ k, HostOp.load [1] ≠ .keyDown k) ∧
    ∀ k, HostOp.load [1] ≠ .keyUp k := by
  refine ⟨by decide, by decide, ?_, ?_⟩ <;> intro k <;> exact nofun

/-- CanonicalMemoriesThatReadAlikeAreEqual. -/
theorem witness_memories :
    let m : Memory := [(0x000, 0xFF), (0xFFF, 0x01)]
    m.wf = true ∧ ∀ a, a ≤ 0xFFF → m.read a = m.read a := ⟨by decide, fun _ _ => rfl⟩

/-- FramebufferShowsOnlyInTheCollisionFlag, its two cases; SoundTimerIsNeverRead. -/
theorem witness_framebuffer :
    (∃ t, step (start 0x00E0 id) = .next t) ∧ (∃ t, step (start 0xD011 id) = .next t) ∧
    (start 0xD011 id).fetch = some 0xD011 ∧ decodeWord 0xD011 = .drw 0 1 1 :=
  ⟨⟨_, rfl⟩, ⟨_, rfl⟩, by decide, by decide⟩

/-- SelfJumpRepeats: `1200` at 0x200. -/
theorem witness_SelfJumpRepeats : (start 0x1200 id).Halted :=
  ⟨by decide, 0x1200, 0x200, by decide, by decide, by decide⟩

/-- RunningOffTheEndFaults: an odd end, and an even one with no step to go. -/
theorem witness_RunningOffTheEndFaults :
    (let s := { State.reset with pc := 0xFFD }
     s.fault = none ∧ s.pc.toNat + 2 * 1 = 0xFFF ∧ ∀ a, s.pc.toNat ≤ a → a ≤ 0xFFF → s.mem.read a = 0) ∧
    let s := { State.reset with pc := 0x1000 }
    s.fault = none ∧ s.pc.toNat + 2 * 0 = 0x1000 ∧ ∀ a, s.pc.toNat ≤ a → a ≤ 0xFFF → s.mem.read a = 0 :=
  ⟨⟨rfl, by decide, fun a h h' => by
      have h : 0xFFD ≤ a := h
      interval_cases a <;> rfl⟩,
    ⟨rfl, by decide, fun a h h' => absurd (show 0x1000 ≤ a from h) (by omega)⟩⟩

/-- LoadCopiesOrRefuses: the longest image that fits, and the next. -/
theorem witness_load :
    0x200 + (List.replicate 3584 (0 : Byte)).length ≤ 4096 ∧
    0x200 + (List.replicate 3585 (0 : Byte)).length > 4096 := by
  rw [List.length_replicate, List.length_replicate]; decide

/-- FailureCodesAreTheTables: a cycle that raises, and one that repeats a latched fault. -/
theorem witness_FailureCodesAreTheTables :
    (runCycle 0 (start 0x00EE id)).1.fault = some .stackUnderflow ∧
    (runCycle 0 { State.reset with fault := some .keyIndexOutOfRange }).1.fault = some .keyIndexOutOfRange := by decide

/-- CycleReturnsSnapshotAndBeep. -/
theorem witness_cycle : ∃ t, step { start 0xF018 (regs [(0, 2)]) with entropy := [0] } = .next t ∧ t.fault = none :=
  ⟨_, rfl, rfl⟩

end Sys2Proof.Tests
end

/-! ### Proofs: the cycle and the host's operations (40_cycle_and_host.md) -/

namespace Sys2Proof.Machine

/-! #### The timers through the execute step -/

/-- The result is a next state that holds the timers of `s`. -/
def KeepsTimers (s : State) (r : Result) : Prop := ∃ t, r = .next t ∧ t.dt = s.dt ∧ t.st = s.st

/-- An ending keeps the timers when the instruction's own writes did: the directive writes `pc` alone. -/
theorem keepsTimers_finish {s u : State} (d : Directive) (hdt : u.dt = s.dt) (hst : u.st = s.st) :
    KeepsTimers s (finish d u) := ⟨_, finish_eq d u, hdt, hst⟩

theorem keepsTimers_raise (f : Fault) (s : State) : KeepsTimers s (raise f s) := ⟨_, raise_eq f s, rfl, rfl⟩

theorem keepsTimers_withRange {s : State} {body : Result} (len : Nat) (h : KeepsTimers s body) :
    KeepsTimers s (withRange len s body) := by
  rw [withRange_eq]
  split
  · exact h
  · exact keepsTimers_raise .memOutOfBounds s

theorem keepsTimers_storeAtI (bytes : List Byte) (s : State) : KeepsTimers s (storeAtI bytes s) :=
  keepsTimers_withRange _ (keepsTimers_finish _ rfl rfl)

theorem keepsTimers_execLoadRegs (x : Nibble) (s : State) : KeepsTimers s (execLoadRegs x s) :=
  keepsTimers_withRange _ (keepsTimers_finish _ (by rw [setRegsFrom_eq]) (by rw [setRegsFrom_eq]))

theorem keepsTimers_skipOnKey (wanted : Bool) (x : Nibble) (s : State) : KeepsTimers s (skipOnKey wanted x s) := by
  unfold skipOnKey
  split
  · exact keepsTimers_finish _ rfl rfl
  · exact keepsTimers_raise _ s

theorem keepsTimers_execLdVxK (x : Nibble) (s : State) : KeepsTimers s (execLdVxK x s) := by
  unfold execLdVxK
  split <;> exact keepsTimers_finish _ rfl rfl

theorem keepsTimers_execCall (nnn : Addr12) (s : State) : KeepsTimers s (execCall nnn s) := by
  unfold execCall
  by_cases h : s.sp.val < 16
  · rw [push_of_lt h]; exact keepsTimers_finish _ rfl rfl
  · rw [push_of_full (by omega)]; exact keepsTimers_raise _ s

theorem keepsTimers_execRet (s : State) : KeepsTimers s (execRet s) := by
  unfold execRet
  by_cases h : s.sp.val = 0
  · rw [pop_of_empty h]; exact keepsTimers_raise _ s
  · rw [pop_of_pos h]; exact keepsTimers_finish _ rfl rfl

/-- An instruction whose row of `writes` names neither timer keeps both, whether it completes or raises. -/
theorem keepsTimers_exec (i : Instr) (s : State) (hdt : (writes s i).dt = false) (hst : (writes s i).st = false) :
    KeepsTimers s (exec i s) := by
  cases i with
  | ret => exact keepsTimers_execRet s
  | call nnn => exact keepsTimers_execCall nnn s
  | drw x y n => exact keepsTimers_withRange _ (keepsTimers_finish _ rfl rfl)
  | skp x => exact keepsTimers_skipOnKey true x s
  | sknp x => exact keepsTimers_skipOnKey false x s
  | ldVxK x => exact keepsTimers_execLdVxK x s
  | ldDTVx x => exact nomatch hdt
  | ldSTVx x => exact nomatch hst
  | ldB x => exact keepsTimers_storeAtI _ s
  | storeRegs x => exact keepsTimers_storeAtI _ s
  | loadRegs x => exact keepsTimers_execLoadRegs x s
  | _ => exact keepsTimers_finish _ rfl rfl

/-! #### The cycle -/

/-- A cycle that passes fetch executes the word at `pc` in the ticked state (R60). -/
theorem step_of_fetch {s : State} {w : Word} (hf : s.fault = none) (hw : s.fetch = some w) :
    step s = exec (decodeWord w) s.tick := by
  simp only [step, hf, hw]

/-- After an instruction that writes neither timer has run in the ticked state, each timer is down by one. -/
theorem exec_tick_timers {i : Instr} {s t : State} (h : exec i s.tick = .next t)
    (hdt : (writes s.tick i).dt = false) (hst : (writes s.tick i).st = false) :
    t.dt.toNat = s.dt.toNat - 1 ∧ t.st.toNat = s.st.toNat - 1 := by
  obtain ⟨u, hu, hudt, hust⟩ := keepsTimers_exec i s.tick hdt hst
  obtain rfl : t = u := by simpa [h] using hu
  rw [hudt, hust]
  exact ⟨toNat_countDown s.dt, toNat_countDown s.st⟩

/-- Settles O9, from the tick before the execute step and what each instruction may write. -/
theorem timersTickOncePerCycle : Obligations.TimersTickOncePerCycle := by
  intro s t w hf hw hs
  rw [step_of_fetch hf hw] at hs
  cases hi : decodeWord w <;> rw [hi] at hs
  case ldDTVx x =>
    cases hs
    exact ⟨rfl, toNat_countDown s.st⟩
  case ldSTVx x =>
    cases hs
    exact ⟨rfl, toNat_countDown s.dt⟩
  case ldVxDT x =>
    have hx : t.reg x = countDown s.dt := by
      cases hs
      exact reg_setReg_self s.tick x s.tick.dt
    exact ⟨hx ▸ toNat_countDown s.dt, exec_tick_timers hs rfl rfl⟩
  all_goals exact exec_tick_timers hs rfl rfl

/-! #### The keypad events -/

/-- The mask of key `k` has bit `k` alone. -/
theorem getLsbD_keyMask (j k : Nibble) : (BitVec.twoPow 16 k.toNat).getLsbD j.toNat = decide (j = k) := by
  have hj : j.toNat < 16 := j.isLt
  simp [BitVec.toNat_inj, hj]

/-- Key `j` after `key_down(k)` (R71). -/
theorem getLsbD_hostKeyDown (j k : Nibble) (s : State) :
    (hostKeyDown k s).key.getLsbD j.toNat = (decide (j = k) || s.key.getLsbD j.toNat) := by
  rw [hostKeyDown, BitVec.getLsbD_or, getLsbD_keyMask, Bool.or_comm]

/-- Key `j` after `key_up(k)` (R72). -/
theorem getLsbD_hostKeyUp (j k : Nibble) (s : State) :
    (hostKeyUp k s).key.getLsbD j.toNat = (!decide (j = k) && s.key.getLsbD j.toNat) := by
  have hj : j.toNat < 16 := j.isLt
  rw [hostKeyUp, BitVec.getLsbD_and, BitVec.getLsbD_not, getLsbD_keyMask, decide_eq_true hj, Bool.true_and,
    Bool.and_comm]

theorem hostKeyDown_idempotent (k : Nibble) (s : State) : hostKeyDown k (hostKeyDown k s) = hostKeyDown k s := by
  simp only [hostKeyDown, BitVec.or_assoc, BitVec.or_self]

theorem hostKeyUp_idempotent (k : Nibble) (s : State) : hostKeyUp k (hostKeyUp k s) = hostKeyUp k s := by
  simp only [hostKeyUp, BitVec.and_assoc, BitVec.and_self]

/-- Settles O52, bit by bit through the mask of one key. -/
theorem keyEventsChangeOneBit : Obligations.KeyEventsChangeOneBit :=
  ⟨fun k s => ⟨rfl, fun j => getLsbD_hostKeyDown j k s, hostKeyDown_idempotent k s⟩,
    fun k s => ⟨rfl, fun j => getLsbD_hostKeyUp j k s, hostKeyUp_idempotent k s⟩⟩

end Sys2Proof.Machine

/-! ### Proofs: control flow and the default no-op (41_control_flow.md) -/

namespace Sys2Proof.Machine

/-! #### Completion and frame -/

/-- Nothing has changed from a state to itself. -/
theorem Unchanged.refl (w : Writes) (s : State) : Unchanged w s s where
  regs _ _ := rfl
  index _ := rfl
  stack _ := ⟨rfl, rfl⟩
  dt _ := rfl
  st _ := rfl
  mem _ _ := rfl
  fb _ := rfl
  key := rfl
  fault _ := rfl
  entropy _ := ⟨rfl, rfl⟩

/-- The frame does not speak of `pc`. -/
theorem Unchanged.set_pc {w : Writes} {s t : State} (h : Unchanged w s t) (a : Word) :
    Unchanged w s { t with pc := a } := { h with }

/-- New stack entries and a new stack pointer are within the frame of an instruction that may write the stack. -/
theorem Unchanged.set_stack {w : Writes} {s t : State} (h : Unchanged w s t) (hw : w.stack = true)
    (stack : Vector Word 16) (sp : Fin 17) : Unchanged w s { t with stack := stack, sp := sp } :=
  { h with stack := fun hw' => absurd (hw.symm.trans hw') Bool.noConfusion }

/-- An instruction that ends normally completes when its own writes are within the frame: the directive adds `pc` alone. -/
theorem completes_of_finish {i : Instr} {s u : State} {w : Writes} {d : Directive} {pc : Word} {P : State → Prop}
    (hexec : exec i s = finish d u) (hpc : d.target u.pc = pc) (hframe : Unchanged w s u)
    (hP : P { u with pc := pc }) : Completes i s w pc P := by
  subst hpc
  exact ⟨_, hexec.trans (finish_eq d u), rfl, hframe.set_pc _, hP⟩

/-! #### Jumps -/

theorem zextNnn_eq_ofNat (nnn : Addr12) : zextNnn nnn = BitVec.ofNat 16 nnn.toNat :=
  (BitVec.ofNat_toNat 16 nnn).symm

theorem zextByte_eq_ofNat (b : Byte) : zextByte b = BitVec.ofNat 16 b.toNat :=
  (BitVec.ofNat_toNat 16 b).symm

/-- A literal fits in 16 bits, so its extension keeps its value. -/
theorem toNat_ofNat_addr (nnn : Addr12) : (BitVec.ofNat 16 nnn.toNat).toNat = nnn.toNat :=
  Nat.mod_eq_of_lt (by have := nnn.isLt; omega)

/-- The sum of a byte and a literal is at most 0x10FE, so it does not wrap in 16 bits (R84). -/
theorem toNat_ofNat_byte_add_addr (b : Byte) (nnn : Addr12) :
    (BitVec.ofNat 16 (b.toNat + nnn.toNat)).toNat = b.toNat + nnn.toNat :=
  Nat.mod_eq_of_lt (by have := b.isLt; have := nnn.isLt; omega)

/-- Settles O10: the target of each jump as a natural, which 16 bits hold. -/
theorem jumpsSetPc : Obligations.JumpsSetPc := by
  refine ⟨fun nnn s => ?_, fun nnn s => ?_⟩
  · exact completes_of_finish rfl (zextNnn_eq_ofNat nnn) (.refl _ s) (toNat_ofNat_addr nnn)
  · have htarget : zextByte (s.reg 0) + zextNnn nnn = BitVec.ofNat 16 ((s.reg 0).toNat + nnn.toNat) := by
      rw [zextByte_eq_ofNat, zextNnn_eq_ofNat, BitVec.ofNat_add]
    exact completes_of_finish rfl htarget (.refl _ s) (toNat_ofNat_byte_add_addr (s.reg 0) nnn)

/-! #### Call and return -/

/-- Below capacity `CALL` pushes `pc + 2` and jumps (R82). -/
theorem exec_call_of_lt (nnn : Addr12) {s : State} (h : s.sp.val < 16) :
    exec (.call nnn) s = finish (.jump (zextNnn nnn))
      { s with stack := s.stack.set s.sp.val (s.pc + 2) h, sp := ⟨s.sp.val + 1, by omega⟩ } := by
  simp only [exec, execCall, push_of_lt h]

/-- At capacity `CALL` raises `StackOverflow` (R82). -/
theorem raises_call_of_full (nnn : Addr12) {s : State} (h : s.sp.val = 16) : Raises (.call nnn) s .stackOverflow := by
  simp only [Raises, exec, execCall, push_of_full h, raise_eq]

/-- With entry `k` on top `RET` lowers `sp` to `k` and jumps to the entry (R83). -/
theorem exec_ret_of_top {s : State} {k : Fin 16} (h : s.sp.val = k.val + 1) :
    exec .ret s = finish (.jump s.stack[k]) { s with sp := k.castSucc } := by
  have hk : s.sp.val - 1 = k.val := by omega
  simp only [exec, execRet, pop_of_pos (s := s) (by omega), hk]
  rfl

/-- With the stack empty `RET` raises `StackUnderflow` (R83). -/
theorem raises_ret_of_empty {s : State} (h : s.sp.val = 0) : Raises .ret s .stackUnderflow := by
  simp only [Raises, exec, execRet, pop_of_empty h, raise_eq]

theorem completes_call (nnn : Addr12) {s : State} (h : s.sp.val < 16) :
    Completes (.call nnn) s { stack := true } (BitVec.ofNat 16 nnn.toNat) fun t =>
      t.sp.val = s.sp.val + 1 ∧ ∀ k : Fin 16, t.stack[k] = if k.val = s.sp.val then s.pc + 2 else s.stack[k] := by
  refine completes_of_finish (exec_call_of_lt nnn h) (zextNnn_eq_ofNat nnn)
    ((Unchanged.refl _ s).set_stack rfl _ _) ⟨rfl, fun k => ?_⟩
  simp only [Fin.getElem_fin, Vector.getElem_set, eq_comm]

theorem completes_ret {s : State} {k : Fin 16} (h : s.sp.val = k.val + 1) :
    Completes .ret s { stack := true } s.stack[k] fun t => t.sp.val = k.val ∧ t.stack = s.stack :=
  completes_of_finish (exec_ret_of_top h) rfl ((Unchanged.refl _ s).set_stack rfl s.stack k.castSucc) ⟨rfl, rfl⟩

/-- Settles O11, by the two outcomes of a push. -/
theorem callPushesOrOverflows : Obligations.CallPushesOrOverflows :=
  ⟨fun nnn _ h => completes_call nnn h, fun nnn _ h => raises_call_of_full nnn h⟩

/-- Settles O12, by the two outcomes of a pop; for a call and its return, the entry on top at the `RET` is the one the
`CALL` pushed. -/
theorem retPopsOrUnderflows : Obligations.RetPopsOrUnderflows := by
  refine ⟨fun s k h => completes_ret h, fun s h => raises_ret_of_empty h, fun nnn s h => ?_⟩
  obtain ⟨t, hcall, -, -, hsp, hstack⟩ := completes_call nnn h
  refine ⟨t, hcall, fun u husp hustack => ?_⟩
  let k : Fin 16 := ⟨s.sp.val, h⟩
  have htop : u.stack[k] = s.pc + 2 := by rw [hustack k rfl, hstack k, if_pos rfl]
  obtain ⟨r, hret, hpc, -, hrsp, -⟩ := completes_ret (s := u) (k := k) (by rw [husp, hsp])
  exact ⟨r, hret, hpc.trans htop, Fin.ext hrsp⟩

/-! #### Comparisons -/

/-- An instruction that is nothing but a conditional skip moves `pc` alone, by 4 when its condition holds. -/
theorem completes_of_skipIf {i : Instr} {s : State} {c : Bool} {p : Prop} [Decidable p]
    (hexec : exec i s = finish (skipIf c) s) (hc : c = true ↔ p) :
    Completes i s {} (if p then s.pc + 4 else s.pc + 2) fun _ => True :=
  completes_of_finish hexec (by simp only [target_skipIf, hc]) (.refl _ s) trivial

/-- Settles O13: each comparison is a conditional skip on its equality or inequality. -/
theorem comparisonsSkipTheNextWord : Obligations.ComparisonsSkipTheNextWord :=
  ⟨fun _ _ _ => completes_of_skipIf rfl beq_iff_eq, fun _ _ _ => completes_of_skipIf rfl bne_iff_ne,
    fun _ _ _ => completes_of_skipIf rfl beq_iff_eq, fun _ _ _ => completes_of_skipIf rfl bne_iff_ne⟩

/-! #### The digits of a word (30_encoding.md R46) -/

theorem toNat_fieldOp (w : Word) : (fieldOp w).toNat = w.toNat / 4096 := by
  have := w.isLt
  simp only [fieldOp, BitVec.extractLsb'_toNat, Nat.shiftRight_eq_div_pow]
  omega

theorem toNat_fieldX (w : Word) : (fieldX w).toNat = w.toNat / 256 % 16 := by
  simp only [fieldX, BitVec.extractLsb'_toNat, Nat.shiftRight_eq_div_pow, Nat.reducePow]

theorem toNat_fieldY (w : Word) : (fieldY w).toNat = w.toNat / 16 % 16 := by
  simp only [fieldY, BitVec.extractLsb'_toNat, Nat.shiftRight_eq_div_pow, Nat.reducePow]

theorem toNat_fieldN (w : Word) : (fieldN w).toNat = w.toNat % 16 := by
  simp only [fieldN, BitVec.extractLsb'_toNat, Nat.shiftRight_zero, Nat.reducePow]

/-- A position matches a digit when it fixes no other (R49). -/
theorem digitMatches_iff (p : Option Nibble) (d : Nibble) : digitMatches p d = true ↔ ∀ q ∈ p, q = d := by
  cases p <;> simp [digitMatches]

/-! #### Unrecognized words -/

/-- The groups of R52 as facts about the word's value. -/
theorem unrecognized_cases {w : Word} (h : unrecognized w = true) :
    (w.toNat / 4096 = 0x0 ∧ w.toNat ≠ 0x00E0 ∧ w.toNat ≠ 0x00EE) ∨
    (w.toNat / 4096 = 0x5 ∧ w.toNat % 16 ≠ 0) ∨
    (w.toNat / 4096 = 0x8 ∧ w.toNat % 16 ∈ [0x8, 0x9, 0xA, 0xB, 0xC, 0xD, 0xF]) ∨
    (w.toNat / 4096 = 0x9 ∧ w.toNat % 16 ≠ 0) ∨
    (w.toNat / 4096 = 0xE ∧ w.toNat % 256 ∉ [0x9E, 0xA1]) ∨
    (w.toNat / 4096 = 0xF ∧ w.toNat % 256 ∉ [0x07, 0x0A, 0x15, 0x18, 0x1E, 0x29, 0x33, 0x55, 0x65]) := by
  simp only [unrecognized] at h
  split at h <;> simp_all

/-- A pattern matches when each digit it fixes is the word's (R49), as arithmetic on the word's value. -/
theorem patternMatches_iff (p : Pattern) (w : Word) :
    patternMatches p w = true ↔
      (∀ d ∈ p.d0, d.toNat = w.toNat / 4096) ∧ (∀ d ∈ p.d1, d.toNat = w.toNat / 256 % 16) ∧
      (∀ d ∈ p.d2, d.toNat = w.toNat / 16 % 16) ∧ ∀ d ∈ p.d3, d.toNat = w.toNat % 16 := by
  simp only [patternMatches, Bool.and_eq_true, digitMatches_iff, ← BitVec.toNat_inj, toNat_fieldOp, toNat_fieldX,
    toNat_fieldY, toNat_fieldN, and_assoc]

/-- No row of the opcode map matches an unrecognized word: each group of R52 differs from each row of R50 in a digit the
row fixes. -/
theorem not_patternMatches_of_unrecognized {w : Word} (h : unrecognized w = true) :
    ∀ r ∈ opcodeRows, ¬ patternMatches r.pattern w = true := by
  have hgroups := unrecognized_cases h
  simp only [List.mem_cons, List.not_mem_nil, or_false, not_or] at hgroups
  simp only [opcodeRows, rowsControl, rowsAlu, rowsMiddle, rowsF, List.forall_mem_append, List.forall_mem_cons,
    List.not_mem_nil, false_imp_iff, implies_true, and_true, true_and, patternMatches_iff, Option.mem_def,
    Option.some.injEq, forall_eq', reduceCtorEq, BitVec.ofNat_eq_ofNat, BitVec.toNat_ofNat, Nat.reducePow,
    Nat.reduceMod]
  omega

/-- An unrecognized word decodes to the default no-op (R51, R52). -/
theorem decodeWord_of_unrecognized {w : Word} (h : unrecognized w = true) : decodeWord w = .nop w := by
  have hnone : opcodeRows.find? (fun r => patternMatches r.pattern w) = none :=
    List.find?_eq_none.2 (not_patternMatches_of_unrecognized h)
  simp only [decodeWord, hnone]

/-- The cycle of an unrecognized word: the tick, and `pc` 2 further on (R89). -/
theorem step_of_unrecognized {w : Word} {s : State} (h : unrecognized w = true) (hf : s.fault = none)
    (hw : s.fetch = some w) : step s = .next { s.tick with pc := s.pc + 2 } := by
  rw [step_of_fetch hf hw, decodeWord_of_unrecognized h]
  rfl

/-- The beep flag is `st > 0` (R65). -/
theorem beep_eq_decide (s : State) : beep s = decide (s.st.toNat > 0) := by
  rw [beep, Bool.eq_iff_iff, bne_iff_ne, decide_eq_true_iff, ← BitVec.toNat_ne_iff_ne, gt_iff_lt, Nat.pos_iff_ne_zero]
  rfl

/-- Settles O14: the no-op is a bare `Next`; its cycle is that of the ticked state, with no fault to report. -/
theorem unrecognizedWordOnlyAdvances : Obligations.UnrecognizedWordOnlyAdvances := by
  refine ⟨fun w s => completes_of_finish rfl rfl (.refl _ s) trivial, fun w rnd s h hf hw => ?_⟩
  refine ⟨_, step_of_unrecognized h hf hw, toNat_countDown s.dt, toNat_countDown s.st, rfl, ?_⟩
  rw [runCycle_next (step_of_unrecognized (s := { s with entropy := [rnd] }) h hf hw)]
  simp only [tick_fault, hf, tick_fb, beep_eq_decide, tick_st, toNat_countDown]
  rfl

end Sys2Proof.Machine

/-! ### Proofs: register loads, the immediate addition and the logic operations (42_register_alu.md) -/

namespace Sys2Proof.Machine

/-! #### Writing one register -/

/-- A write to a register that the frame lists is within the frame. -/
theorem Unchanged.set_reg {w : Writes} {s t : State} (h : Unchanged w s t) {x : Nibble} (hx : x ∈ w.regs) (b : Byte) :
    Unchanged w s (t.setReg x b) :=
  { h with
    regs := fun r hr => by
      have hrx : r ≠ x := fun hrx => hr (hrx ▸ hx)
      rw [reg_setReg_other t b hrx, h.regs r hr] }

/-- An instruction that is one register write completes at the next word with that register alone changed, and with
whatever follows from the register's new value. -/
theorem completes_of_writeReg {i : Instr} {x : Nibble} {b : Byte} {s : State} {P : State → Prop}
    (hexec : exec i s = writeReg x b s) (hP : ∀ t : State, t.reg x = b → P t) :
    Completes i s { regs := [x] } (s.pc + 2) P :=
  completes_of_finish hexec rfl ((Unchanged.refl _ s).set_reg (List.mem_singleton_self x) b)
    (hP _ (reg_setReg_self s x b))

/-! #### Loads, immediate addition, logic -/

/-- Settles O15: each load is one register write of its source. -/
theorem registerLoadsCopy : Obligations.RegisterLoadsCopy :=
  ⟨fun _ _ _ => completes_of_writeReg rfl fun _ ht => ht, fun _ _ _ => completes_of_writeReg rfl fun _ ht => ht⟩

/-- Settles O16: one register write of the sum, which a byte holds modulo 256; no flag is written. -/
theorem addImmediateWrapsWithoutFlag : Obligations.AddImmediateWrapsWithoutFlag := fun x kk s =>
  completes_of_writeReg rfl fun t ht => by rw [ht, BitVec.toNat_add]

/-- Settles O17: each operation is one register write, and its bits are those of the operands combined. -/
theorem logicCombinesBitwise : Obligations.LogicCombinesBitwise := by
  refine ⟨fun x y s => ?or, fun x y s => ?and, fun x y s => ?xor⟩
  case or => exact completes_of_writeReg rfl fun t ht k _ => by rw [ht, BitVec.getLsbD_or]
  case and => exact completes_of_writeReg rfl fun t ht k _ => by rw [ht, BitVec.getLsbD_and]
  case xor => exact completes_of_writeReg rfl fun t ht k _ => by rw [ht, BitVec.getLsbD_xor]

end Sys2Proof.Machine

/-! ### Proofs: the index register (43_index_memory.md) -/

namespace Sys2Proof.Machine

/-! #### Writing the index register -/

/-- A new `i` is within the frame of an instruction that may write `i`. -/
theorem Unchanged.set_index {w : Writes} {s t : State} (h : Unchanged w s t) (hw : w.index = true) (a : Word) :
    Unchanged w s { t with i := a } :=
  { h with index := fun hw' => absurd (hw.symm.trans hw') Bool.noConfusion }

/-- An instruction that is one write of `i` completes at the next word with `i` alone changed, and with whatever follows
from the new value of `i`. -/
theorem completes_of_writeIndex {i : Instr} {a : Word} {s : State} {P : State → Prop}
    (hexec : exec i s = writeIndex a s) (hP : ∀ t : State, t.i = a → P t) :
    Completes i s { index := true } (s.pc + 2) P :=
  completes_of_finish hexec rfl ((Unchanged.refl _ s).set_index rfl a) (hP _ rfl)

/-! #### Loads of the index register -/

/-- A byte fits in 16 bits, so its extension keeps its value. -/
theorem toNat_zextByte (b : Byte) : (zextByte b).toNat = b.toNat := BitVec.toNat_setWidth_of_le (by decide)

/-- Five times a byte is at most 0x4FB, so the font address is not reduced in 16 bits (R123). -/
theorem toNat_zextByte_mul_five (b : Byte) : (zextByte b * 5).toNat = b.toNat * 5 := by
  have hfits : b.toNat * 5 < 2 ^ 16 := by have := b.isLt; omega
  calc (zextByte b * 5).toNat
    _ = (zextByte b).toNat * 5 % 2 ^ 16 := BitVec.toNat_mul _ _
    _ = b.toNat * 5 % 2 ^ 16 := by rw [toNat_zextByte]
    _ = b.toNat * 5 := Nat.mod_eq_of_lt hfits

/-- Settles O22: each load is one write of `i`, of a value that 16 bits hold. -/
theorem indexLoads : Obligations.IndexLoads := by
  refine ⟨fun nnn s => ?literal, fun x s => ?font⟩
  case literal => exact completes_of_writeIndex rfl fun t ht => by rw [ht, zextNnn_eq_ofNat, toNat_ofNat_addr]
  case font => exact completes_of_writeIndex rfl fun t ht => by rw [ht, toNat_zextByte_mul_five]

end Sys2Proof.Machine

/-! ### Proofs: the display (44_display.md) -/

namespace Sys2Proof.Machine

/-! #### Clearing the screen -/

/-- A new framebuffer is within the frame of an instruction that may write the framebuffer. -/
theorem Unchanged.set_fb {w : Writes} {s t : State} (h : Unchanged w s t) (hw : w.fb = true) (fb : Framebuffer) :
    Unchanged w s { t with fb := fb } :=
  { h with fb := fun hw' => absurd (hw.symm.trans hw') Bool.noConfusion }

/-- Settles O29: `CLS` is one write of the blank framebuffer. -/
theorem clearScreenTurnsEveryCellOff : Obligations.ClearScreenTurnsEveryCellOff := fun s =>
  completes_of_finish rfl rfl ((Unchanged.refl _ s).set_fb rfl _) get_blank

/-! #### Drawing a sprite -/

/-- When its bytes exist, or with none to read, `DRW` draws them and goes on (R134). -/
theorem exec_drw_of_inBounds (x y : Nibble) {n : Nibble} {s : State}
    (h : n.toNat = 0 ∨ s.i.toNat + n.toNat - 1 ≤ 0xFFF) :
    exec (.drw x y n) s = finish .next (drawSprite x y (s.mem.readBytes s.i.toNat n.toNat) s) := by
  have hrange : n.toNat = 0 ∨ s.i.toNat + n.toNat ≤ 4096 := by omega
  exact (withRange_eq n.toNat s _).trans (if_pos hrange)

/-- Drawing flips the cells under the sprite's 1 bits, at the coordinates of the state before it (R132, R136). -/
theorem get_drawSprite (x y : Nibble) {bytes : List Byte} (s : State) (h : bytes.length ≤ 32) (row : Fin 32)
    (col : Fin 64) :
    (drawSprite x y bytes s).fb.get row col =
      (s.fb.get row col ^^ spriteCovers (s.reg x).toNat (s.reg y).toNat bytes row col) :=
  (blit_spec (s.reg x).toNat bytes (s.reg y).toNat (s.fb, false) h).1 row col

/-- Drawing leaves in `VF` whether a cell under one of the sprite's 1 bits was on (R132, R134). -/
theorem reg_vf_drawSprite (x y : Nibble) {bytes : List Byte} (s : State) (h : bytes.length ≤ 32) :
    (drawSprite x y bytes s).reg vf =
      if ∃ row col, spriteCovers (s.reg x).toNat (s.reg y).toNat bytes row col = true ∧ s.fb.get row col = true
        then 1 else 0 := by
  obtain ⟨-, hcollision⟩ := blit_spec (s.reg x).toNat bytes (s.reg y).toNat (s.fb, false) h
  simp only [drawSprite, reg_setReg_self, flagByte, hcollision, Bool.false_eq_true, false_or]

/-- A sprite of `DRW` has at most 15 rows (R131), so it does not overlap itself around the screen. -/
theorem length_spriteBytes_le (m : Memory) (a : Nat) (n : Nibble) : (m.readBytes a n.toNat).length ≤ 32 := by
  have := n.isLt
  rw [length_readBytes]
  omega

/-! #### Drawing twice, and drawing over the right edge -/

/-- Memories that read alike hold the same blocks of bytes. -/
theorem readBytes_congr {m m' : Memory} (h : ∀ a, m.read a = m'.read a) (a len : Nat) :
    m.readBytes a len = m'.readBytes a len := by
  simp only [Memory.readBytes, h]

/-- On a blank screen a sprite collides with nothing (R135). -/
theorem reg_vf_drawSprite_of_blank (x y : Nibble) {bytes : List Byte} {s : State} (h : bytes.length ≤ 32)
    (hblank : ∀ row col, s.fb.get row col = false) : (drawSprite x y bytes s).reg vf = 0 := by
  simp only [reg_vf_drawSprite x y s h, hblank, Bool.false_eq_true, and_false, exists_false, if_false]

section Redraw

variable {x y : Nibble} {bytes : List Byte} {s u : State} (hlen : bytes.length ≤ 32)
  (hfb : u.fb = (drawSprite x y bytes s).fb) (hx : u.reg x = s.reg x) (hy : u.reg y = s.reg y)
include hlen hfb hx hy

/-- The same sprite drawn again at the same place flips the same cells back (R135). -/
theorem fb_drawSprite_drawSprite : (drawSprite x y bytes u).fb = s.fb :=
  framebuffer_ext fun row col => by
    rw [get_drawSprite x y u hlen, hfb, get_drawSprite x y s hlen, hx, hy, Bool.xor_assoc, Bool.xor_self,
      Bool.xor_false]

/-- The second draw collides exactly when the first turned a cell on: a cell under a 1 bit is on before the second draw
when it was off before the first, and no other cell changed (R135). -/
theorem reg_vf_drawSprite_drawSprite :
    (drawSprite x y bytes u).reg vf = 1 ↔
      ∃ row col, s.fb.get row col = false ∧ (drawSprite x y bytes s).fb.get row col = true := by
  have hcell : ∀ covered on : Bool, covered = true ∧ (on ^^ covered) = true ↔ on = false ∧ (on ^^ covered) = true := by
    decide
  rw [reg_vf_drawSprite x y u hlen, hx, hy, hfb, Ne.ite_eq_left_iff (by decide)]
  simp only [get_drawSprite x y s hlen, hcell]

end Redraw

/-- A row of eight 1 bits at column 60 covers the last four columns and the first four of its row (R135). -/
theorem spriteCovers_fullRow_wraps :
    ∀ col : Fin 64, spriteCovers 60 0 [0xFF] 0 col = true ↔ 60 ≤ col.val ∨ col.val ≤ 3 := by decide

/-- Settles O31: a draw is an exclusive or with the sprite's cells, which the second draw repeats and so undoes; at the
right edge the covered cells are computed. -/
theorem spriteInvolutionAndWrap : Obligations.SpriteInvolutionAndWrap := by
  refine ⟨fun x y n s h => ?involution, fun x y s hx hy hi hbyte hempty => ?wrap⟩
  case involution =>
    have hlen := length_spriteBytes_le s.mem s.i.toNat n
    refine ⟨_, exec_drw_of_inBounds x y h, reg_vf_drawSprite_of_blank x y hlen, fun u hfb hux huy hui hmem => ?_⟩
    refine ⟨_, exec_drw_of_inBounds x y (hui ▸ h), ?_⟩
    rw [hui, readBytes_congr hmem]
    exact ⟨fb_drawSprite_drawSprite hlen hfb hux huy, reg_vf_drawSprite_drawSprite hlen hfb hux huy⟩
  case wrap =>
    have hexec := exec_drw_of_inBounds x y (n := 1) (.inr hi)
    have hbytes : s.mem.readBytes s.i.toNat (1 : Nibble).toNat = [0xFF] := congrArg (· :: []) hbyte
    rw [hbytes] at hexec
    refine ⟨_, hexec, fun col => ?_⟩
    show (drawSprite x y [0xFF] s).fb.get 0 col = true ↔ _
    rw [get_drawSprite x y s (by decide), hx, hy, hempty, Bool.false_xor]
    exact spriteCovers_fullRow_wraps col

end Sys2Proof.Machine

/-! ### Proofs: the keypad and the timers (45_keypad_timers.md) -/

namespace Sys2Proof.Machine

/-! #### Repeated ticks -/

/-- A timer counted down `k` times is down by `k`, floor at zero. -/
theorem toNat_iterate_countDown (k : Nat) (t : Byte) : (countDown^[k] t).toNat = t.toNat - k := by
  induction k with
  | zero => rfl
  | succ k ih => rw [Function.iterate_succ_apply', toNat_countDown, ih, Nat.sub_sub]

/-- Repeated ticks count both timers down and write nothing else. -/
theorem iterate_tick (k : Nat) (s : State) :
    State.tick^[k] s = { s with dt := countDown^[k] s.dt, st := countDown^[k] s.st } := by
  induction k generalizing s with
  | zero => rfl
  | succ k ih => exact ih s.tick

/-! #### Waiting for a key -/

/-- With no key pressed none is selected (R143). -/
theorem keySelect_zero : keySelect 0 = none := rfl

/-- With no key pressed `LD Vx,K` is a bare `Stay`, which writes nothing (R143). -/
theorem exec_ldVxK_of_no_key (x : Nibble) {s : State} (h : s.key = 0) : exec (.ldVxK x) s = .next s := by
  have hnone : keySelect s.key = none := h ▸ keySelect_zero
  simp only [exec, execLdVxK, hnone, finish_eq, target_stay]

/-- With no key pressed the cycle of `LD Vx,K` is the tick alone (R143, R147). -/
theorem step_of_waiting {s : State} {w : Word} {x : Nibble} (hf : s.fault = none) (hw : s.fetch = some w)
    (hi : decodeWord w = .ldVxK x) (hkey : s.key = 0) : step s = .next s.tick := by
  rw [step_of_fetch hf hw, hi]
  exact exec_ldVxK_of_no_key x hkey

/-- A run whose first step answers a next state goes on from there. -/
theorem run_succ_of_step {M : Host.Core} (k : Nat) {s t : M.State} (h : M.step s = .next t) :
    M.run (k + 1) s = M.run k t := by
  simp only [Host.Core.run, h]

/-- A waiting `LD Vx,K` repeats the tick: a tick changes neither the word at `pc`, nor the keypad, nor the latch, so the
machine waits again (R147). -/
theorem run_of_waiting (k : Nat) {s : State} {w : Word} {x : Nibble} (hf : s.fault = none) (hw : s.fetch = some w)
    (hi : decodeWord w = .ldVxK x) (hkey : s.key = 0) :
    Host.Core.run Sys2Proof.core k s = .next (State.tick^[k] s) := by
  induction k generalizing s with
  | zero => rfl
  | succ k ih =>
    calc Host.Core.run Sys2Proof.core (k + 1) s
      _ = Host.Core.run Sys2Proof.core k s.tick := run_succ_of_step k (step_of_waiting hf hw hi hkey)
      _ = .next (State.tick^[k] s.tick) := ih hf hw hkey

/-- Settles O35: the run is the tick repeated, which counts each timer down on its own. -/
theorem waitingRunsTheTimersDown : Obligations.WaitingRunsTheTimersDown := by
  intro k s w x hf hw hi hkey
  refine ⟨_, run_of_waiting k hf hw hi hkey, ?_⟩
  rw [iterate_tick]
  exact ⟨toNat_iterate_countDown k s.dt, toNat_iterate_countDown k s.st, rfl⟩

end Sys2Proof.Machine

/-! ### Proofs: the decoder and the encoder (30_encoding.md) -/

namespace Sys2Proof.Machine

open Sys2Proof.Laws.FieldsInPlace

/-! #### A word and its fields -/

/-- The two bytes of a word, as memory holds them, are the word (R54). -/
theorem wordOfBytes_highByte_lowByte (w : Word) : wordOfBytes (highByte w) (lowByte w) = w :=
  (BitVec.extractLsb'_append_extractLsb'_eq_extractLsb' rfl).trans BitVec.extractLsb'_eq_self

theorem word4_fields (w : Word) : word4 (fieldOp w) (fieldX w) (fieldY w) (fieldN w) = w := by
  ext k hk
  simp [word4, fieldOp, fieldX, fieldY, fieldN]
  grind

/-- `kk` is the digits `y` and `n` (R46). -/
theorem wordXkk_fields (a : Nibble) (w : Word) :
    wordXkk a (fieldX w) (fieldKk w) = word4 a (fieldX w) (fieldY w) (fieldN w) := by
  ext k hk
  simp [wordXkk, word4, fieldKk, fieldX, fieldY, fieldN]
  grind

/-- `nnn` is the digits `x`, `y` and `n` (R46). -/
theorem wordNnn_fields (a : Nibble) (w : Word) :
    wordNnn a (fieldNnn w) = word4 a (fieldX w) (fieldY w) (fieldN w) := by
  ext k hk
  simp [wordNnn, word4, fieldNnn, fieldX, fieldY, fieldN]
  grind

theorem toNat_fieldKk (w : Word) : (fieldKk w).toNat = w.toNat % 256 := by
  simp only [fieldKk, BitVec.extractLsb'_toNat, Nat.shiftRight_zero, Nat.reducePow]

/-! #### Disjoint patterns -/

/-- Two positions fix different digits. -/
def digitsClash (a b : Option Nibble) : Bool := a.isSome && b.isSome && a != b

/-- Two patterns fix different digits in some position. -/
def patternsClash (p q : Pattern) : Bool :=
  digitsClash p.d0 q.d0 || digitsClash p.d1 q.d1 || digitsClash p.d2 q.d2 || digitsClash p.d3 q.d3

/-- A digit matches no two positions that fix different digits. -/
theorem digitsClash_eq_false {a b : Option Nibble} {d : Nibble} (ha : digitMatches a d = true)
    (hb : digitMatches b d = true) : digitsClash a b = false := by
  rw [digitMatches_iff] at ha hb
  cases a with
  | none => rfl
  | some a =>
    cases b with
    | none => rfl
    | some b =>
      obtain rfl := ha a rfl
      obtain rfl := hb b rfl
      simp [digitsClash]

/-- A word matches no two patterns that clash. -/
theorem patternsClash_eq_false {p q : Pattern} {w : Word} (hp : patternMatches p w = true)
    (hq : patternMatches q w = true) : patternsClash p q = false := by
  simp only [patternMatches, Bool.and_eq_true] at hp hq
  obtain ⟨⟨⟨hp0, hp1⟩, hp2⟩, hp3⟩ := hp
  obtain ⟨⟨⟨hq0, hq1⟩, hq2⟩, hq3⟩ := hq
  simp only [patternsClash, digitsClash_eq_false hp0 hq0, digitsClash_eq_false hp1 hq1, digitsClash_eq_false hp2 hq2,
    digitsClash_eq_false hp3 hq3, Bool.or_self]

theorem opcodeRows_pairwise_clash :
    opcodeRows.Pairwise fun p q => patternsClash p.pattern q.pattern = true := by decide

theorem opcodeRows_pairwise_disjoint : opcodeRows.Pairwise fun p q =>
    ∀ w, ¬ (patternMatches p.pattern w = true ∧ patternMatches q.pattern w = true) :=
  opcodeRows_pairwise_clash.imp fun hclash _ ⟨hp, hq⟩ =>
    absurd (hclash.symm.trans (patternsClash_eq_false hp hq)) Bool.noConfusion

/-- Settles O3: any two of the 34 rows fix different digits in some position. -/
theorem opcodePatternsAreDisjoint : Obligations.OpcodePatternsAreDisjoint :=
  ⟨rfl, opcodeRows_pairwise_disjoint⟩

/-- A word that matches two rows finds them the same. -/
theorem row_unique {p q : Row} {w : Word} (hp : p ∈ opcodeRows) (hq : q ∈ opcodeRows)
    (hpw : patternMatches p.pattern w = true) (hqw : patternMatches q.pattern w = true) : p = q := by
  by_contra hne
  have hsymm : Std.Symm fun p q : Row =>
      ∀ w, ¬ (patternMatches p.pattern w = true ∧ patternMatches q.pattern w = true) :=
    ⟨fun _ _ h w hw => h w hw.symm⟩
  exact opcodeRows_pairwise_disjoint.forall hp hq hne w ⟨hpw, hqw⟩

/-- A word decodes by the row it matches, whichever place the row has in the table. -/
theorem decodeWord_of_row {r : Row} {w : Word} (hr : r ∈ opcodeRows) (hw : patternMatches r.pattern w = true) :
    decodeWord w = r.build w := by
  unfold decodeWord
  split
  next q hq =>
    have hmatch := List.find?_some hq
    rw [row_unique (List.mem_of_find?_eq_some hq) hr hmatch hw]
  next hnone => exact absurd hw (List.find?_eq_none.1 hnone r hr)

/-! #### Decoding what was encoded -/

/-- Format E decodes by the row that fixes all four digits. -/
theorem decodeWord_formatE (k : Nat) {a b c d : Nibble} {i : Instr}
    (hr : opcodeRows[k]? = some ⟨⟨some a, some b, some c, some d⟩, fun _ => i⟩) : decodeWord (word4 a b c d) = i :=
  decodeWord_of_row (List.mem_of_getElem? hr) (by simp [patternMatches, digitMatches, fields_word4])

/-- Format A decodes by the row that fixes the major opcode and takes `nnn`. -/
theorem decodeWord_formatA (k : Nat) {a : Nibble} {mk : Addr12 → Instr}
    (hr : opcodeRows[k]? = some ⟨⟨some a, none, none, none⟩, fun w => mk (fieldNnn w)⟩) (nnn : Addr12) :
    decodeWord (wordNnn a nnn) = mk nnn :=
  (decodeWord_of_row (List.mem_of_getElem? hr) (by simp [patternMatches, digitMatches, fields_wordNnn])).trans
    (congrArg mk (fields_wordNnn a nnn).2)

/-- Format I decodes by the row that fixes the major opcode and takes `x` and `kk`. -/
theorem decodeWord_formatI (k : Nat) {a : Nibble} {mk : Nibble → Byte → Instr}
    (hr : opcodeRows[k]? = some ⟨⟨some a, none, none, none⟩, fun w => mk (fieldX w) (fieldKk w)⟩) (x : Nibble)
    (kk : Byte) : decodeWord (wordXkk a x kk) = mk x kk := by
  obtain ⟨hop, hx, hkk⟩ := fields_wordXkk a x kk
  exact (decodeWord_of_row (List.mem_of_getElem? hr) (by simp [patternMatches, digitMatches, hop])).trans
    (congrArg₂ mk hx hkk)

/-- Format R decodes by the row that fixes the major opcode and `n`, and takes `x` and `y`. -/
theorem decodeWord_formatR (k : Nat) {a d : Nibble} {mk : Nibble → Nibble → Instr}
    (hr : opcodeRows[k]? = some ⟨⟨some a, none, none, some d⟩, fun w => mk (fieldX w) (fieldY w)⟩) (x y : Nibble) :
    decodeWord (word4 a x y d) = mk x y := by
  obtain ⟨hop, hx, hy, hn⟩ := fields_word4 a x y d
  exact (decodeWord_of_row (List.mem_of_getElem? hr) (by simp [patternMatches, digitMatches, hop, hn])).trans
    (congrArg₂ mk hx hy)

/-- Format X decodes by the row that fixes all digits but `x`. -/
theorem decodeWord_formatX (k : Nat) {a c d : Nibble} {mk : Nibble → Instr}
    (hr : opcodeRows[k]? = some ⟨⟨some a, none, some c, some d⟩, fun w => mk (fieldX w)⟩) (x : Nibble) :
    decodeWord (word4 a x c d) = mk x := by
  obtain ⟨hop, hx, hy, hn⟩ := fields_word4 a x c d
  exact (decodeWord_of_row (List.mem_of_getElem? hr) (by simp [patternMatches, digitMatches, hop, hy, hn])).trans
    (congrArg mk hx)

/-- Format D decodes by the row that fixes the major opcode and takes the three other digits. -/
theorem decodeWord_formatD (k : Nat) {a : Nibble} {mk : Nibble → Nibble → Nibble → Instr}
    (hr : opcodeRows[k]? = some ⟨⟨some a, none, none, none⟩, fun w => mk (fieldX w) (fieldY w) (fieldN w)⟩)
    (x y n : Nibble) : decodeWord (word4 a x y n) = mk x y n := by
  obtain ⟨hop, hx, hy, hn⟩ := fields_word4 a x y n
  refine (decodeWord_of_row (List.mem_of_getElem? hr) (by simp [patternMatches, digitMatches, hop])).trans ?_
  simp only [hx, hy, hn]

/-- Decoding gives a well-formed instruction back from its word (R54): each is built by its own row of R50. -/
theorem decodeWord_encodeWord {i : Instr} (h : wellFormed i = true) : decodeWord (encodeWord i) = i := by
  cases i with
  | cls => exact decodeWord_formatE 0 rfl
  | ret => exact decodeWord_formatE 1 rfl
  | jp nnn => exact decodeWord_formatA 2 rfl nnn
  | call nnn => exact decodeWord_formatA 3 rfl nnn
  | seImm x kk => exact decodeWord_formatI 4 rfl x kk
  | sneImm x kk => exact decodeWord_formatI 5 rfl x kk
  | seReg x y => exact decodeWord_formatR 6 rfl x y
  | ldImm x kk => exact decodeWord_formatI 7 rfl x kk
  | addImm x kk => exact decodeWord_formatI 8 rfl x kk
  | ldReg x y => exact decodeWord_formatR 9 rfl x y
  | orReg x y => exact decodeWord_formatR 10 rfl x y
  | andReg x y => exact decodeWord_formatR 11 rfl x y
  | xorReg x y => exact decodeWord_formatR 12 rfl x y
  | addReg x y => exact decodeWord_formatR 13 rfl x y
  | subReg x y => exact decodeWord_formatR 14 rfl x y
  | shr x y => exact decodeWord_formatR 15 rfl x y
  | subnReg x y => exact decodeWord_formatR 16 rfl x y
  | shl x y => exact decodeWord_formatR 17 rfl x y
  | sneReg x y => exact decodeWord_formatR 18 rfl x y
  | ldI nnn => exact decodeWord_formatA 19 rfl nnn
  | jpV0 nnn => exact decodeWord_formatA 20 rfl nnn
  | rnd x kk => exact decodeWord_formatI 21 rfl x kk
  | drw x y n => exact decodeWord_formatD 22 rfl x y n
  | skp x => exact decodeWord_formatX 23 rfl x
  | sknp x => exact decodeWord_formatX 24 rfl x
  | ldVxDT x => exact decodeWord_formatX 25 rfl x
  | ldVxK x => exact decodeWord_formatX 26 rfl x
  | ldDTVx x => exact decodeWord_formatX 27 rfl x
  | ldSTVx x => exact decodeWord_formatX 28 rfl x
  | addI x => exact decodeWord_formatX 29 rfl x
  | ldF x => exact decodeWord_formatX 30 rfl x
  | ldB x => exact decodeWord_formatX 31 rfl x
  | storeRegs x => exact decodeWord_formatX 32 rfl x
  | loadRegs x => exact decodeWord_formatX 33 rfl x
  | nop w => exact decodeWord_of_unrecognized h

/-- Settles O1: the two bytes are the instruction's word again, which decodes to the instruction. -/
theorem decodeOfEncode : Obligations.DecodeOfEncode := by
  intro i rest h
  show Decoded.instr (decodeWord (wordOfBytes (highByte (encodeWord i)) (lowByte (encodeWord i)))) rest = _
  rw [wordOfBytes_highByte_lowByte, decodeWord_encodeWord h]

/-- Settles O5: each word is the encoding of the instruction named. -/
theorem documentedWordsDecode : Obligations.DocumentedWordsDecode :=
  ⟨decodeWord_encodeWord (i := .call 0xABC) rfl, decodeWord_encodeWord (i := .ret) rfl,
    decodeWord_encodeWord (i := .ldImm 0 0x05) rfl, decodeWord_encodeWord (i := .subReg 0 1) rfl,
    decodeWord_encodeWord (i := .ldI 0x230) rfl, decodeWord_encodeWord (i := .storeRegs 2) rfl,
    decodeWord_encodeWord (i := .drw 0 1 1) rfl, decodeWord_encodeWord (i := .skp 0) rfl,
    decodeWord_encodeWord (i := .ldVxK 3) rfl, decodeWord_encodeWord (i := .nop 0x5121) rfl⟩

/-! #### Encoding what was decoded -/

/-- A word that matches a pattern has the digits the pattern fixes, and its own elsewhere. -/
theorem word4_of_patternMatches {p : Pattern} {w : Word} (h : patternMatches p w = true) :
    word4 (p.d0.getD (fieldOp w)) (p.d1.getD (fieldX w)) (p.d2.getD (fieldY w)) (p.d3.getD (fieldN w)) = w := by
  have hdigit {q : Option Nibble} {d : Nibble} (hq : digitMatches q d = true) : q.getD d = d := by
    cases q with
    | none => rfl
    | some q => exact (digitMatches_iff _ _).1 hq q rfl
  simp only [patternMatches, Bool.and_eq_true] at h
  obtain ⟨⟨⟨h0, h1⟩, h2⟩, h3⟩ := h
  rw [hdigit h0, hdigit h1, hdigit h2, hdigit h3, word4_fields]

/-- Each row builds an instruction whose encoding has the digits the row fixes, and the word's own elsewhere. -/
theorem encodeWord_build (w : Word) : ∀ r ∈ opcodeRows, encodeWord (r.build w) =
    word4 (r.pattern.d0.getD (fieldOp w)) (r.pattern.d1.getD (fieldX w)) (r.pattern.d2.getD (fieldY w))
      (r.pattern.d3.getD (fieldN w)) := by
  simp only [opcodeRows, rowsControl, rowsAlu, rowsMiddle, rowsF, List.forall_mem_append, List.forall_mem_cons,
    List.not_mem_nil, false_imp_iff, implies_true, encodeWord, Option.getD_some, Option.getD_none, wordXkk_fields,
    wordNnn_fields, and_self]

theorem wellFormed_build (w : Word) : ∀ r ∈ opcodeRows, wellFormed (r.build w) = true := by
  simp only [opcodeRows, rowsControl, rowsAlu, rowsMiddle, rowsF, List.forall_mem_append, List.forall_mem_cons,
    List.not_mem_nil, false_imp_iff, implies_true, wellFormed, and_self]

/-- A word that matches no row is unrecognized: each major opcode's rows leave only its group of R52. -/
theorem unrecognized_of_no_row {w : Word} (h : ∀ r ∈ opcodeRows, ¬ patternMatches r.pattern w = true) :
    unrecognized w = true := by
  have hlow (y n : Nat) (hn : n < 16) : y = w.toNat / 16 % 16 ∧ n = w.toNat % 16 ↔ w.toNat % 256 = y * 16 + n := by
    omega
  simp only [opcodeRows, rowsControl, rowsAlu, rowsMiddle, rowsF, List.forall_mem_append, List.forall_mem_cons,
    List.not_mem_nil, false_imp_iff, implies_true, and_true, true_and, patternMatches_iff, Option.mem_def,
    Option.some.injEq, forall_eq', reduceCtorEq, BitVec.ofNat_eq_ofNat, BitVec.toNat_ofNat, Nat.reducePow,
    Nat.reduceMod, Nat.reduceLT, hlow, Nat.reduceMul, Nat.reduceAdd] at h
  have hmajor : w.toNat / 4096 < 16 := by have := w.isLt; omega
  -- A major opcode with a row of wildcards contradicts `h`, and the six groups of R52 remain.
  interval_cases hop : w.toNat / 4096 <;> simp at h
  all_goals
    simp [unrecognized, hop]
    omega

/-- Every word is the encoding of the well-formed instruction it decodes to (R49, R54). -/
theorem wellFormed_and_encodeWord_decodeWord (w : Word) :
    wellFormed (decodeWord w) = true ∧ encodeWord (decodeWord w) = w := by
  by_cases hrow : ∃ r ∈ opcodeRows, patternMatches r.pattern w = true
  · obtain ⟨r, hr, hw⟩ := hrow
    rw [decodeWord_of_row hr hw]
    exact ⟨wellFormed_build w r hr, (encodeWord_build w r hr).trans (word4_of_patternMatches hw)⟩
  · have hun : unrecognized w = true := unrecognized_of_no_row fun r hr hw => hrow ⟨r, hr, hw⟩
    rw [decodeWord_of_unrecognized hun]
    exact ⟨hun, rfl⟩

theorem encodeWord_of_decodeWord {w : Word} {i : Instr} (h : decodeWord w = i) : encodeWord i = w :=
  h ▸ (wellFormed_and_encodeWord_decodeWord w).2

/-- Settles O2: a word matches a row, whose instruction holds all its digits, or is its own no-op. -/
theorem encodeOfDecode : Obligations.EncodeOfDecode := wellFormed_and_encodeWord_decodeWord

/-! #### The unrecognized words -/

/-- A word decodes to the default no-op exactly when it is unrecognized. -/
theorem decodeWord_eq_nop_iff (w : Word) : decodeWord w = .nop w ↔ unrecognized w = true := by
  refine ⟨fun h => ?_, decodeWord_of_unrecognized⟩
  have hwf := (wellFormed_and_encodeWord_decodeWord w).1
  rwa [h] at hwf

/-- Settles O4: the groups of R52 in the fields are the model's groups in the word's value, by its major opcode. -/
theorem unrecognizedWordsAreTheListedGroups : Obligations.UnrecognizedWordsAreTheListedGroups := by
  intro w
  have hmajor : w.toNat / 4096 < 16 := by have := w.isLt; omega
  simp only [decodeWord_eq_nop_iff, ← BitVec.toNat_inj, ne_eq, List.mem_cons, List.not_mem_nil, or_false,
    toNat_fieldOp, toNat_fieldN, toNat_fieldKk, BitVec.reduceToNat]
  interval_cases hop : w.toNat / 4096 <;> simp [unrecognized, hop]

end Sys2Proof.Machine

/-! ### Proofs: arithmetic with flags, shifts and the random byte (42_register_alu.md) -/

namespace Sys2Proof.Machine

/-! #### Writing a register and the flag -/

/-- An instruction that is one write of a result and a flag completes at the next word with the two registers alone
changed, and with whatever follows from their new values; the flag remains where they are the same (R100). -/
theorem completes_of_writeRegFlag {i : Instr} {x : Nibble} {b : Byte} {f : Bool} {s : State} {P : State → Prop}
    (hexec : exec i s = writeRegFlag x b f s)
    (hP : ∀ t : State, t.reg vf = flagByte f → (x ≠ vf → t.reg x = b) → P t) :
    Completes i s { regs := [x, vf] } (s.pc + 2) P := by
  have hframe : Unchanged { regs := [x, vf] } s (s.setRegAndFlag x b f) :=
    ((Unchanged.refl _ s).set_reg (by simp) b).set_reg (by simp) (flagByte f)
  refine completes_of_finish hexec rfl hframe (hP _ (reg_setReg_self _ vf (flagByte f)) fun hx => ?_)
  show (s.setRegAndFlag x b f).reg x = b
  rw [reg_setRegAndFlag, if_neg hx, if_pos rfl]

theorem flagByte_decide (p : Prop) [Decidable p] : flagByte (decide p) = if p then 1 else 0 := by
  simp only [flagByte, decide_eq_true_eq]

theorem toNat_flagByte (f : Bool) : (flagByte f).toNat = f.toNat := by cases f <;> rfl

/-! #### Addition and subtraction -/

/-- Settles O18: one write of the sum, which a byte holds modulo 256, and of the carry. -/
theorem addRegistersSetsCarry : Obligations.AddRegistersSetsCarry := fun x y s =>
  completes_of_writeRegFlag rfl fun t hflag hx =>
    ⟨hflag.trans (flagByte_decide _), fun hne => by rw [hx hne, BitVec.toNat_add]⟩

/-- A byte holds a difference modulo 256. -/
theorem toNat_sub_byte (a b : Byte) : (a - b).toNat = (a.toNat + 256 - b.toNat) % 256 := by
  have := b.isLt
  rw [BitVec.toNat_sub]
  omega

/-- Settles O19: one write of the difference and of the strict comparison, with the operands exchanged for `SUBN`. -/
theorem subtractionsSetNotBorrow : Obligations.SubtractionsSetNotBorrow := by
  refine ⟨fun x y s => ?_, fun x y s => ?_⟩ <;>
    exact completes_of_writeRegFlag rfl fun t hflag hx =>
      ⟨hflag.trans (flagByte_decide _), fun hne => by rw [hx hne, toNat_sub_byte]⟩

/-! #### Shifts -/

theorem toNat_flagByte_lowBit (a : Byte) : (flagByte (lowBit a)).toNat = a.toNat % 2 := by
  rw [toNat_flagByte, lowBit, BitVec.getLsbD, Nat.toNat_testBit, pow_zero, Nat.div_one]

theorem toNat_flagByte_highBit (a : Byte) : (flagByte (highBit a)).toNat = a.toNat / 128 := by
  have := a.isLt
  rw [toNat_flagByte, highBit, BitVec.getLsbD, Nat.toNat_testBit]
  omega

/-- Settles O20: one write of the shifted value and of the bit shifted out. -/
theorem shiftsMoveOneBitToVF : Obligations.ShiftsMoveOneBitToVF := by
  refine ⟨fun x y s => ?shr, fun x y s => ?shl⟩
  case shr =>
    exact completes_of_writeRegFlag rfl fun t hflag hx =>
      ⟨by rw [hflag, toNat_flagByte_lowBit],
        fun hne => by rw [hx hne, BitVec.toNat_ushiftRight, Nat.shiftRight_eq_div_pow, pow_one]⟩
  case shl =>
    exact completes_of_writeRegFlag rfl fun t hflag hx =>
      ⟨by rw [hflag, toNat_flagByte_highBit],
        fun hne => by rw [hx hne, BitVec.toNat_shiftLeft, Nat.shiftLeft_eq, pow_one]⟩

/-! #### The random byte -/

/-- An entropy byte consumed is within the frame of an instruction that may consume one. -/
theorem Unchanged.consume_entropy {w : Writes} {s t : State} (h : Unchanged w s t) (hw : w.entropy = true) :
    Unchanged w s t.consumeEntropy :=
  { h with entropy := fun hw' => absurd (hw.symm.trans hw') Bool.noConfusion }

/-- `RND` consumes the next entropy byte and writes it, masked, to `v[x]` (R112). -/
theorem completes_rnd (x : Nibble) (kk : Byte) (s : State) :
    Completes (.rnd x kk) s { regs := [x], entropy := true } (s.pc + 2) fun t =>
      t.reg x = s.entropyByte &&& kk ∧ t.entropy = s.entropy.tail ∧ t.draws = s.draws + 1 :=
  completes_of_finish rfl rfl (((Unchanged.refl _ s).consume_entropy rfl).set_reg (List.mem_singleton_self x) _)
    ⟨reg_setReg_self s.consumeEntropy x _, rfl, rfl⟩

theorem entropyByte_of_cons {s : State} {b : Byte} {rest : List Byte} (h : s.entropy = b :: rest) :
    s.entropyByte = b := by
  simp only [State.entropyByte, h]

/-- A completion whose result says more completes with any of it. -/
theorem Completes.imp {i : Instr} {s : State} {w : Writes} {pc : Word} {P Q : State → Prop}
    (h : Completes i s w pc P) (hPQ : ∀ t, P t → Q t) : Completes i s w pc Q := by
  obtain ⟨t, hexec, hpc, hframe, hP⟩ := h
  exact ⟨t, hexec, hpc, hframe, hPQ t hP⟩

/-- Settles O21: the byte consumed is the host's oldest one when there is one. -/
theorem randomConsumesOneEntropyByte : Obligations.RandomConsumesOneEntropyByte := by
  refine ⟨completes_rnd, fun x kk b rest s h => (completes_rnd x kk s).imp ?_⟩
  rintro t ⟨hx, hrest, -⟩
  rw [entropyByte_of_cons h] at hx
  rw [h] at hrest
  exact ⟨hx, hrest⟩

end Sys2Proof.Machine

/-! ### Proofs: index arithmetic and block moves between registers and memory (43_index_memory.md) -/

namespace Sys2Proof.Machine

/-- Settles O23: one write of `i`, whose 16 bits hold the sum modulo 65536. -/
theorem addIndexWrapsAtSixteenBits : Obligations.AddIndexWrapsAtSixteenBits := fun x s =>
  completes_of_writeIndex rfl fun t ht => by rw [ht, BitVec.toNat_add, toNat_zextByte]

/-! #### Storing a block at `i` -/

theorem mem_addresses {a len k : Nat} : k ∈ addresses a len ↔ a ≤ k ∧ k < a + len := by
  simp only [addresses, List.mem_map, List.mem_range]
  exact ⟨by omega, fun h => ⟨k - a, by omega, by omega⟩⟩

/-- Bytes stored within the addresses the frame lists are within the frame. -/
theorem Unchanged.write_bytes {w : Writes} {s t : State} (h : Unchanged w s t) {a : Nat} {bytes : List Byte}
    (hw : w.mem = addresses a bytes.length) : Unchanged w s { t with mem := t.mem.writeBytes a bytes } :=
  { h with
    mem := fun k hk => by
      have hout : ¬ (a ≤ k ∧ k < a + bytes.length) := fun hin => hk (hw ▸ mem_addresses.2 hin)
      rw [read_writeBytes, if_neg hout, h.mem k hk] }

/-- An instruction that stores a block at `i` in bounds completes at the next word with the block's addresses alone
changed, and with whatever follows from the bytes read back there (R127). -/
theorem completes_of_storeAtI {i : Instr} {bytes : List Byte} {len : Nat} {s : State} {P : State → Prop}
    (hexec : exec i s = storeAtI bytes s) (hlen : bytes.length = len) (hrange : s.i.toNat + len ≤ 4096)
    (hP : ∀ t : State, (∀ k < len, t.mem.read (s.i.toNat + k) = bytes.getD k 0) → P t) :
    Completes i s { mem := addresses s.i.toNat len } (s.pc + 2) P := by
  subst hlen
  refine completes_of_finish (hexec.trans ((withRange_eq _ _ _).trans (if_pos (.inr hrange)))) rfl
    ((Unchanged.refl _ s).write_bytes rfl) (hP _ fun k hk => ?_)
  rw [read_writeBytes, if_pos (by omega), Nat.add_sub_cancel_left]

/-- Settles O24: the block is the three decimal digits. -/
theorem decimalDigitsStored : Obligations.DecimalDigitsStored := fun x s h =>
  completes_of_storeAtI rfl rfl (len := 3) (by omega) fun t ht => by
    refine ⟨(congrArg _ (ht 0 (by decide))).trans ?_, (congrArg _ (ht 1 (by decide))).trans ?_,
      (congrArg _ (ht 2 (by decide))).trans ?_⟩ <;> simp [decimalDigits]

@[simp] theorem length_regsBelow (s : State) (n : Nat) : (s.regsBelow n).length = n := by
  simp [State.regsBelow]

/-- Register `k` stands at place `k` of the registers below `n`. -/
theorem getD_regsBelow (s : State) {n : Nat} {k : Nibble} (h : k.toNat < n) :
    (s.regsBelow n).getD k.toNat 0 = s.reg k := by
  simp [State.regsBelow, h]

/-- Settles O25: the block is the registers up to `v[x]`. -/
theorem registersStored : Obligations.RegistersStored := fun x s h =>
  completes_of_storeAtI rfl (length_regsBelow s _) (by omega) fun t ht k hk => by
    rw [ht k.toNat (by omega), getD_regsBelow s (by omega)]

/-- Settles O28: the two bytes at the next `pc` are the first two stored. -/
theorem storeIsSeenByTheNextFetch : Obligations.StoreIsSeenByTheNextFetch := by
  intro x s hx hi hrange
  obtain ⟨t, hexec, hpc, -, hread⟩ := registersStored x s hrange
  have hhigh : t.mem.read s.i.toNat = s.reg 0 := hread 0 (Nat.zero_le _)
  have hlow : t.mem.read (s.i.toNat + 1) = s.reg 1 := hread 1 hx
  rw [← hi] at hpc
  exact ⟨t, hexec, by rw [fetch_eq, hpc, if_pos (by omega), hhigh, hlow]⟩

/-! #### Loading a block from `i` -/

theorem mem_regsUpTo {x r : Nibble} : r ∈ regsUpTo x ↔ r.toNat ≤ x.toNat := by
  simp only [regsUpTo, List.mem_map, List.mem_range]
  constructor
  · rintro ⟨k, hk, rfl⟩
    rw [BitVec.toNat_ofNat]
    have := Nat.mod_le k (2 ^ 4)
    omega
  · exact fun h => ⟨r.toNat, by omega, by simp⟩

/-- A block written to registers the frame lists is within the frame. -/
theorem Unchanged.set_regs {w : Writes} {s t : State} (h : Unchanged w s t) {bytes : List Byte}
    (hlen : bytes.length ≤ 16) (hw : ∀ r : Nibble, r.toNat < bytes.length → r ∈ w.regs) :
    Unchanged w s (t.setRegsFrom 0 bytes) := by
  rw [setRegsFrom_eq]
  refine { h with regs := fun r hr => ?_ }
  have hout : ¬ (0 ≤ r.toNat ∧ r.toNat < 0 + bytes.length) := fun hin => hr (hw r (by omega))
  show (t.setRegsFrom 0 bytes).reg r = s.reg r
  rw [reg_setRegsFrom _ _ _ _ (by omega), if_neg hout, h.regs r hr]

/-- Settles O26: register `k` receives the byte at place `k` of the block. -/
theorem registersLoaded : Obligations.RegistersLoaded := by
  intro x s h
  have hx := x.isLt
  have hexec : exec (.loadRegs x) s = finish .next (s.setRegsFrom 0 (s.mem.readBytes s.i.toNat (x.toNat + 1))) :=
    (withRange_eq _ _ _).trans (if_pos (by omega))
  refine completes_of_finish hexec (by rw [setRegsFrom_eq]; rfl) ((Unchanged.refl _ s).set_regs ?_ fun r hr => ?_) ?_
  · rw [length_readBytes]; omega
  · rw [length_readBytes] at hr; exact mem_regsUpTo.2 (by omega)
  · intro k hk
    show (s.setRegsFrom 0 (s.mem.readBytes s.i.toNat (x.toNat + 1))).reg k = _
    have hk' : k.toNat < (s.mem.readBytes s.i.toNat (x.toNat + 1)).length := by rw [length_readBytes]; omega
    rw [reg_setRegsFrom _ _ _ _ (by rw [length_readBytes]; omega), if_pos (by omega), Nat.sub_zero,
      List.getD_eq_getElem _ _ hk', getElem_readBytes]

/-! #### Ranges out of bounds -/

/-- An instruction whose range passes the last address raises `MemOutOfBounds` (R35, R127). -/
theorem raises_of_withRange {i : Instr} {s : State} {len : Nat} {body : Result}
    (hexec : exec i s = withRange len s body) (hlen : 1 ≤ len) (hrange : s.i.toNat + len > 4096) :
    Raises i s .memOutOfBounds :=
  hexec.trans ((withRange_eq _ _ _).trans (if_neg (by omega)))

/-- Settles O27: each instruction checks its whole range first. -/
theorem memoryRangeFaults : Obligations.MemoryRangeFaults := by
  refine ⟨fun x s h => ?ldB, fun x s h => ?storeRegs, fun x s h => ?loadRegs, fun x y n s hn h => ?drw⟩
  case ldB => exact raises_of_withRange rfl (len := 3) (by decide) (by omega)
  case storeRegs =>
    exact raises_of_withRange rfl (by rw [length_regsBelow]; omega) (by rw [length_regsBelow]; omega)
  case loadRegs => exact raises_of_withRange rfl (by omega) (by omega)
  case drw => exact raises_of_withRange rfl hn (by omega)

end Sys2Proof.Machine

/-! ### Proofs: the cells a sprite flips (44_display.md) -/

namespace Sys2Proof.Machine

/-- Settles O30: the cells and the flag are those of the blit, which reads its coordinates before it writes. -/
theorem drawFlipsTheSpritesCells : Obligations.DrawFlipsTheSpritesCells := by
  intro x y n s h
  have hlen := length_spriteBytes_le s.mem s.i.toNat n
  refine completes_of_finish (exec_drw_of_inBounds x y h) rfl
    (((Unchanged.refl _ s).set_fb rfl _).set_reg (List.mem_singleton_self vf) _) ?_
  refine ⟨get_drawSprite x y s hlen, ?_⟩
  show ((drawSprite x y (s.mem.readBytes s.i.toNat n.toNat) s).reg vf = 0 ∨
      (drawSprite x y (s.mem.readBytes s.i.toNat n.toNat) s).reg vf = 1) ∧
    ((drawSprite x y (s.mem.readBytes s.i.toNat n.toNat) s).reg vf = 1 ↔ _)
  rw [reg_vf_drawSprite x y s hlen]
  exact ⟨(ite_eq_or_eq _ _ _).symm, Ne.ite_eq_left_iff (by decide)⟩

end Sys2Proof.Machine

/-! ### Proofs: key skips, the key wait and the timer moves (45_keypad_timers.md) -/

namespace Sys2Proof.Machine

/-! #### Skips on a key -/

theorem keyIndex_of_eq {b : Byte} {k : Nibble} (h : b.toNat = k.toNat) : keyIndex b = some k := by
  have hk := k.isLt
  rw [keyIndex, if_pos (by omega), Option.some_inj]
  exact BitVec.eq_of_toNat_eq (by rw [BitVec.toNat_setWidth, h, Nat.mod_eq_of_lt hk])

theorem keyIndex_of_gt {b : Byte} (h : b.toNat > 15) : keyIndex b = none := if_neg (by omega)

/-- With `v[x]` a key the skip depends on that key's level alone (R141, R142). -/
theorem skipOnKey_of_key {x k : Nibble} {s : State} (wanted : Bool) (h : (s.reg x).toNat = k.toNat) :
    skipOnKey wanted x s = finish (skipIf (s.keyPressed k == wanted)) s := by
  simp only [skipOnKey, keyIndex_of_eq h]

/-- With `v[x]` no key the skip raises `KeyIndexOutOfRange` (D6). -/
theorem skipOnKey_of_gt {x : Nibble} {s : State} (wanted : Bool) (h : (s.reg x).toNat > 15) :
    skipOnKey wanted x s = .next { s with fault := some .keyIndexOutOfRange } := by
  simp only [skipOnKey, keyIndex_of_gt h, raise_eq]

/-- Settles O32: a skip on the level of the key, or the fault where there is no such key. -/
theorem keySkips : Obligations.KeySkips :=
  ⟨fun _ _ _ h => completes_of_skipIf (skipOnKey_of_key true h) beq_iff_eq,
    fun _ _ _ h => completes_of_skipIf (skipOnKey_of_key false h) beq_iff_eq,
    fun _ _ h => ⟨skipOnKey_of_gt true h, skipOnKey_of_gt false h⟩⟩

/-! #### The key wait -/

/-- With a key pressed some pressed key is selected (R143). -/
theorem keySelect_of_ne_zero {key : Word} (h : key ≠ 0) :
    ∃ k, keySelect key = some k ∧ key.getLsbD k.toNat = true := by
  have hspec := keySelect_spec key
  cases hk : keySelect key with
  | none => rw [hk] at hspec; exact absurd hspec h
  | some k => rw [hk] at hspec; exact ⟨k, rfl, hspec⟩

/-- With key `k` selected `LD Vx,K` writes its index and goes on (R143). -/
theorem exec_ldVxK_of_key (x : Nibble) {s : State} {k : Nibble} (h : keySelect s.key = some k) :
    exec (.ldVxK x) s = writeReg x (k.setWidth 8) s := by
  simp only [exec, execLdVxK, h, writeReg]

/-- Settles O33: one register write of the selected key's index, or a bare `Stay`. -/
theorem keyWaitTakesAPressedKey : Obligations.KeyWaitTakesAPressedKey := by
  refine ⟨fun x s hkey => ?pressed, fun x s hkey => ?none⟩
  case pressed =>
    obtain ⟨k, hk, hpressed⟩ := keySelect_of_ne_zero hkey
    refine completes_of_writeReg (exec_ldVxK_of_key x hk) fun t ht => ?_
    have hx : (t.reg x).toNat = k.toNat := by rw [ht, BitVec.toNat_setWidth_of_le (by decide)]
    rw [hx]
    exact ⟨k.isLt, hpressed⟩
  case none => exact ⟨s, exec_ldVxK_of_no_key x hkey, rfl, .refl _ s, trivial⟩

/-! #### The timers -/

/-- A new delay timer is within the frame of an instruction that may write it. -/
theorem Unchanged.set_dt {w : Writes} {s t : State} (h : Unchanged w s t) (hw : w.dt = true) (a : Byte) :
    Unchanged w s { t with dt := a } :=
  { h with dt := fun hw' => absurd (hw.symm.trans hw') Bool.noConfusion }

/-- A new sound timer is within the frame of an instruction that may write it. -/
theorem Unchanged.set_st {w : Writes} {s t : State} (h : Unchanged w s t) (hw : w.st = true) (a : Byte) :
    Unchanged w s { t with st := a } :=
  { h with st := fun hw' => absurd (hw.symm.trans hw') Bool.noConfusion }

/-- Settles O34: each is one write, of a register or of a timer. -/
theorem timerMoves : Obligations.TimerMoves :=
  ⟨fun _ _ => completes_of_writeReg rfl fun _ ht => ht,
    fun _ s => completes_of_finish rfl rfl ((Unchanged.refl _ s).set_dt rfl _) rfl,
    fun _ s => completes_of_finish rfl rfl ((Unchanged.refl _ s).set_st rfl _) rfl⟩

end Sys2Proof.Machine

/-! ### Proofs: what every instruction and every step can do (10_state.md section 11, 60_exceptions.md) -/

namespace Sys2Proof.Machine

/-! #### Raising and completing -/

/-- Under a fault's condition the instruction raises that fault (60_exceptions.md R160). -/
theorem raises_of_faultCondition {i : Instr} {s : State} {f : Fault} (h : faultCondition s i f) : Raises i s f := by
  obtain ⟨hldB, hstore, hload, hdrw⟩ := memoryRangeFaults
  obtain ⟨-, -, hkey⟩ := keySkips
  unfold faultCondition at h
  split at h
  case h_1 nnn => exact raises_call_of_full nnn h
  case h_2 => exact raises_ret_of_empty h
  case h_3 x y n =>
    obtain ⟨hn, hrange⟩ := h
    exact hdrw x y n s hn hrange
  case h_4 x => exact hldB x s h
  case h_5 x => exact hstore x s h
  case h_6 x => exact hload x s h
  case h_7 x =>
    obtain ⟨hskp, -⟩ := hkey x s h
    exact hskp
  case h_8 x =>
    obtain ⟨-, hsknp⟩ := hkey x s h
    exact hsknp
  case h_9 => exact h.elim

/-- An instruction that can meet a fault's condition may write the latch. -/
theorem writes_fault_of_faultCondition {i : Instr} {s : State} {f : Fault} (h : faultCondition s i f) :
    (writes s i).fault = true := by
  unfold faultCondition at h
  split at h
  case h_9 => exact h.elim
  all_goals rfl

/-- The instruction answers a next state and has written at most what its row of `writes` allows, the latch excepted. -/
def CompletesInFrame (i : Instr) (s : State) : Prop :=
  ∃ t, exec i s = .next t ∧ Unchanged { writes s i with fault := false } s t

theorem Completes.inFrame {i : Instr} {s : State} {pc : Word} {P : State → Prop}
    (h : Completes i s { writes s i with fault := false } pc P) : CompletesInFrame i s := by
  obtain ⟨t, hexec, -, hframe, -⟩ := h
  exact ⟨t, hexec, hframe⟩

/-- Under no fault's condition the instruction completes in its frame: what each does is its own completion statement. -/
theorem completesInFrame_of_no_fault {i : Instr} {s : State} (h : ∀ f, ¬ faultCondition s i f) :
    CompletesInFrame i s := by
  obtain ⟨hor, hand, hxor⟩ := logicCombinesBitwise
  obtain ⟨hskp, hsknp, -⟩ := keySkips
  obtain ⟨hreadDelay, hwriteDelay, hwriteSound⟩ := timerMoves
  cases i with
  | cls => exact (clearScreenTurnsEveryCellOff s).inFrame
  | ret =>
    have hsp : s.sp.val ≠ 0 := h .stackUnderflow
    exact (completes_ret (k := ⟨s.sp.val - 1, by omega⟩) (by simp only; omega)).inFrame
  | jp nnn => exact (jumpsSetPc.1 nnn s).inFrame
  | call nnn =>
    have hsp : s.sp.val ≠ 16 := h .stackOverflow
    exact (completes_call nnn (by omega)).inFrame
  | seImm x kk => exact (completes_of_skipIf rfl beq_iff_eq).inFrame
  | sneImm x kk => exact (completes_of_skipIf rfl bne_iff_ne).inFrame
  | seReg x y => exact (completes_of_skipIf rfl beq_iff_eq).inFrame
  | ldImm x kk => exact (registerLoadsCopy.1 x kk s).inFrame
  | addImm x kk => exact (addImmediateWrapsWithoutFlag x kk s).inFrame
  | ldReg x y => exact (registerLoadsCopy.2 x y s).inFrame
  | orReg x y => exact (hor x y s).inFrame
  | andReg x y => exact (hand x y s).inFrame
  | xorReg x y => exact (hxor x y s).inFrame
  | addReg x y => exact (addRegistersSetsCarry x y s).inFrame
  | subReg x y => exact (subtractionsSetNotBorrow.1 x y s).inFrame
  | shr x y => exact (shiftsMoveOneBitToVF.1 x y s).inFrame
  | subnReg x y => exact (subtractionsSetNotBorrow.2 x y s).inFrame
  | shl x y => exact (shiftsMoveOneBitToVF.2 x y s).inFrame
  | sneReg x y => exact (completes_of_skipIf rfl bne_iff_ne).inFrame
  | ldI nnn => exact (indexLoads.1 nnn s).inFrame
  | jpV0 nnn => exact (jumpsSetPc.2 nnn s).inFrame
  | rnd x kk => exact (completes_rnd x kk s).inFrame
  | drw x y n =>
    have hrange : ¬ (1 ≤ n.toNat ∧ s.i.toNat + n.toNat - 1 > 0xFFF) := h .memOutOfBounds
    exact (drawFlipsTheSpritesCells x y n s (by omega)).inFrame
  | skp x =>
    have hx : ¬ (s.reg x).toNat > 15 := h .keyIndexOutOfRange
    exact (hskp x (BitVec.ofNat 4 (s.reg x).toNat) s (by rw [BitVec.toNat_ofNat]; omega)).inFrame
  | sknp x =>
    have hx : ¬ (s.reg x).toNat > 15 := h .keyIndexOutOfRange
    exact (hsknp x (BitVec.ofNat 4 (s.reg x).toNat) s (by rw [BitVec.toNat_ofNat]; omega)).inFrame
  | ldVxDT x => exact (hreadDelay x s).inFrame
  | ldVxK x =>
    by_cases hkey : s.key = 0
    · exact ⟨s, exec_ldVxK_of_no_key x hkey, .refl _ s⟩
    · exact (keyWaitTakesAPressedKey.1 x s hkey).inFrame
  | ldDTVx x => exact (hwriteDelay x s).inFrame
  | ldSTVx x => exact (hwriteSound x s).inFrame
  | addI x => exact (addIndexWrapsAtSixteenBits x s).inFrame
  | ldF x => exact (indexLoads.2 x s).inFrame
  | ldB x => exact (decimalDigitsStored x s (not_lt.1 (h .memOutOfBounds))).inFrame
  | storeRegs x => exact (registersStored x s (not_lt.1 (h .memOutOfBounds))).inFrame
  | loadRegs x => exact (registersLoaded x s (not_lt.1 (h .memOutOfBounds))).inFrame
  | nop w => exact (unrecognizedWordOnlyAdvances.1 w s).inFrame

/-- Everything an instruction can do: raise a fault under its condition, or complete in its frame with no fault. -/
theorem exec_cases (i : Instr) (s : State) :
    (∃ f, faultCondition s i f ∧ Raises i s f) ∨ CompletesInFrame i s := by
  by_cases h : ∃ f, faultCondition s i f
  · obtain ⟨f, hf⟩ := h
    exact .inl ⟨f, hf, raises_of_faultCondition hf⟩
  · exact .inr (completesInFrame_of_no_fault (not_exists.1 h))

/-- A fault latched is within the frame of an instruction that may write the latch. -/
theorem Unchanged.set_fault {w : Writes} {s t : State} (h : Unchanged w s t) (hw : w.fault = true) (f : Option Fault) :
    Unchanged w s { t with fault := f } :=
  { h with fault := fun hw' => absurd (hw.symm.trans hw') Bool.noConfusion }

/-- Settles O36: a completion is in its frame, and a raised fault writes the latch, which the frame then allows. -/
theorem instructionsWriteOnlyTheirOwn : Obligations.InstructionsWriteOnlyTheirOwn := by
  intro i s t h
  rcases exec_cases i s with ⟨f, hcond, hraise⟩ | ⟨u, hexec, hframe⟩
  · obtain rfl : t = { s with fault := some f } := Host.Outcome.next.inj (h.symm.trans hraise)
    exact (Unchanged.refl _ s).set_fault (writes_fault_of_faultCondition hcond) _
  · obtain rfl : t = u := Host.Outcome.next.inj (h.symm.trans hexec)
    exact { hframe with fault := fun _ => hframe.fault rfl }

theorem exec_answers_next (i : Instr) (s : State) : ∃ t, exec i s = .next t := by
  rcases exec_cases i s with ⟨f, -, hraise⟩ | ⟨t, hexec, -⟩
  · exact ⟨_, hraise⟩
  · exact ⟨t, hexec⟩

/-- With no fault latched a step answers a next state. -/
theorem step_answers_next {s : State} (h : s.fault = none) : ∃ t, step s = .next t := by
  rcases step_cases s with ⟨f, hf, -⟩ | ⟨-, -, hstep⟩ | ⟨w, -, -, hstep⟩
  · exact absurd (hf.symm.trans h) (Option.some_ne_none f)
  · exact ⟨_, hstep⟩
  · rw [hstep]
    exact exec_answers_next _ _

/-- Settles O37: an instruction raises or completes, and either answers a next state. -/
theorem everyInstructionAnswersANextState : Obligations.EveryInstructionAnswersANextState :=
  ⟨exec_answers_next, fun _ h => step_answers_next h⟩

/-! #### Faults -/

/-- A fault that an instruction latched is one whose condition it met: a completion leaves the latch alone. -/
theorem faultCondition_of_latched {i : Instr} {s t : State} {f : Fault} (hs : s.fault = none)
    (h : exec i s = .next t) (ht : t.fault = some f) : faultCondition s i f := by
  rcases exec_cases i s with ⟨g, hcond, hraise⟩ | ⟨u, hexec, hframe⟩
  · obtain rfl : t = { s with fault := some g } := Host.Outcome.next.inj (h.symm.trans hraise)
    exact Option.some.inj ht ▸ hcond
  · obtain rfl : t = u := Host.Outcome.next.inj (h.symm.trans hexec)
    exact absurd (ht.symm.trans ((hframe.fault rfl).trans hs)) (Option.some_ne_none f)

/-- Settles O38: each condition raises its fault, and only a raise writes the latch. -/
theorem faultsExactlyUnderTheirConditions : Obligations.FaultsExactlyUnderTheirConditions :=
  ⟨fun _ _ _ h => raises_of_faultCondition h, fun _ _ _ _ hs h ht => faultCondition_of_latched hs h ht⟩

/-- Settles O39: the fetch fault comes before the tick; an instruction's fault is raised in the ticked state. -/
theorem faultsArePrecise : Obligations.FaultsArePrecise := by
  intro s t f hs h ht
  rcases step_cases s with ⟨g, hg, -⟩ | ⟨-, hfetch, hstep⟩ | ⟨w, -, hfetch, hstep⟩
  · exact absurd (hg.symm.trans hs) (Option.some_ne_none g)
  · obtain rfl : t = { s with fault := some .memOutOfBounds } := Host.Outcome.next.inj (h.symm.trans hstep)
    obtain rfl : Fault.memOutOfBounds = f := Option.some.inj ht
    exact .inl ⟨hfetch, rfl⟩
  · have hexec : exec (decodeWord w) s.tick = .next t := hstep.symm.trans h
    have hraise : Raises (decodeWord w) s.tick f :=
      raises_of_faultCondition (faultCondition_of_latched hs hexec ht)
    obtain rfl : t = { s.tick with fault := some f } := Host.Outcome.next.inj (hexec.symm.trans hraise)
    exact .inr ⟨hfetch ▸ Option.some_ne_none w, toNat_countDown s.dt, toNat_countDown s.st, rfl⟩

/-! #### The invariant -/

/-- Every next state the result can be meets the invariant. -/
def InvNext (r : Result) : Prop := ∀ t, r = .next t → t.Inv

theorem invNext_next {t : State} (h : t.Inv) : InvNext (.next t) := fun _ hu => Host.Outcome.next.inj hu ▸ h

/-- After a fetch the next word is at most at 0x1000. -/
theorem toNat_target_next_le {pc : Word} (h : pc.toNat ≤ 0xFFE) : (Directive.next.target pc).toNat ≤ 0x1000 := by
  rw [target_next]
  bv_omega

theorem toNat_target_skipIf_le {pc : Word} (h : pc.toNat ≤ 0xFFE) (c : Bool) :
    ((skipIf c).target pc).toNat ≤ 0x10FE := by
  rw [target_skipIf]
  split <;> bv_omega

section Invariant

variable {s : State} (hs : s.Inv)
include hs

theorem invNext_raise (f : Fault) : InvNext (raise f s) := invNext_next hs

/-- A range check keeps the invariant when its body does in bounds. -/
theorem invNext_withRange {len : Nat} {body : Result} (h : len = 0 ∨ s.i.toNat + len ≤ 4096 → InvNext body) :
    InvNext (withRange len s body) := by
  rw [withRange_eq]
  split
  next hrange => exact h hrange
  next => exact invNext_next hs

/-- An ending keeps the invariant when the instruction left memory and stack alone and `pc` goes where it may. -/
theorem invNext_finish {u : State} {d : Directive} (hmem : u.mem = s.mem) (hstack : u.stack = s.stack)
    (hpc : (d.target u.pc).toNat ≤ 0x10FE) : InvNext (finish d u) := by
  obtain ⟨hwf, -, hentries⟩ := hs
  exact invNext_next ⟨hmem ▸ hwf, hpc, hstack ▸ hentries⟩

/-- `RET` jumps to a stack entry. -/
theorem invNext_ret : InvNext (exec .ret s) := by
  by_cases hsp : s.sp.val = 0
  · rw [raises_ret_of_empty hsp]
    exact invNext_next hs
  · rw [exec_ret_of_top (s := s) (k := ⟨s.sp.val - 1, by omega⟩) (by simp only; omega)]
    have hentry := hs.2.2 ⟨s.sp.val - 1, by omega⟩
    exact invNext_finish hs rfl rfl (hentry.trans (by decide))

variable (hfetch : s.pc.toNat ≤ 0xFFE)
include hfetch

/-- An instruction that ends with `Next`, memory, stack and `pc` untouched, keeps the invariant. -/
theorem invNext_finish_next {u : State} (hmem : u.mem = s.mem) (hstack : u.stack = s.stack) (hpc : u.pc = s.pc) :
    InvNext (finish .next u) :=
  invNext_finish hs hmem hstack (hpc ▸ (toNat_target_next_le hfetch).trans (by decide))

theorem invNext_skipIf (c : Bool) : InvNext (finish (skipIf c) s) :=
  invNext_finish hs rfl rfl (toNat_target_skipIf_le hfetch c)

theorem invNext_skipOnKey (wanted : Bool) (x : Nibble) : InvNext (skipOnKey wanted x s) := by
  unfold skipOnKey
  split
  · exact invNext_skipIf hs hfetch _
  · exact invNext_raise hs _

/-- A block stored in bounds leaves memory canonical. -/
theorem invNext_storeAtI (bytes : List Byte) (hne : bytes.length ≠ 0) : InvNext (storeAtI bytes s) := by
  refine invNext_withRange hs fun hrange => invNext_next ?_
  obtain ⟨hwf, -, hentries⟩ := hs
  have hpc := toNat_target_next_le hfetch
  exact ⟨wf_writeBytes bytes hwf (hrange.resolve_left hne), hpc.trans (by decide), hentries⟩

theorem invNext_execLoadRegs (x : Nibble) : InvNext (execLoadRegs x s) :=
  invNext_withRange hs fun _ =>
    invNext_finish_next hs hfetch (by rw [setRegsFrom_eq]) (by rw [setRegsFrom_eq]) (by rw [setRegsFrom_eq])

theorem invNext_execLdVxK (x : Nibble) : InvNext (execLdVxK x s) := by
  unfold execLdVxK
  split
  · exact invNext_finish_next hs hfetch rfl rfl rfl
  · exact invNext_next hs

/-- `CALL` pushes `pc + 2`, which is at most 0x1000 after a fetch, and jumps to a 12-bit address. -/
theorem invNext_call (nnn : Addr12) : InvNext (exec (.call nnn) s) := by
  by_cases hsp : s.sp.val < 16
  · rw [exec_call_of_lt nnn hsp, finish_eq]
    obtain ⟨hwf, -, hentries⟩ := hs
    have hpush : (s.pc + 2).toNat ≤ 0x1000 := toNat_target_next_le hfetch
    refine invNext_next ⟨hwf, ?_, fun k => ?_⟩
    · have := nnn.isLt
      rw [target_jump, zextNnn_eq_ofNat, toNat_ofNat_addr]
      omega
    · simp only [Fin.getElem_fin, Vector.getElem_set]
      split
      · exact hpush
      · exact hentries k
  · rw [raises_call_of_full nnn (s := s) (by omega)]
    exact invNext_next hs

/-- Every instruction keeps the invariant where a fetch succeeds (R26, R90). -/
theorem invNext_exec (i : Instr) : InvNext (exec i s) := by
  cases i with
  | ret => exact invNext_ret hs
  | call nnn => exact invNext_call hs hfetch nnn
  | jp nnn =>
    have := nnn.isLt
    exact invNext_finish hs rfl rfl (by rw [target_jump, zextNnn_eq_ofNat, toNat_ofNat_addr]; omega)
  | jpV0 nnn =>
    have := nnn.isLt
    have := (s.reg 0).isLt
    refine invNext_finish hs rfl rfl ?_
    rw [target_jump, zextByte_eq_ofNat, zextNnn_eq_ofNat, ← BitVec.ofNat_add, toNat_ofNat_byte_add_addr]
    omega
  | seImm x kk => exact invNext_skipIf hs hfetch _
  | sneImm x kk => exact invNext_skipIf hs hfetch _
  | seReg x y => exact invNext_skipIf hs hfetch _
  | sneReg x y => exact invNext_skipIf hs hfetch _
  | drw x y n => exact invNext_withRange hs fun _ => invNext_finish_next hs hfetch rfl rfl rfl
  | skp x => exact invNext_skipOnKey hs hfetch true x
  | sknp x => exact invNext_skipOnKey hs hfetch false x
  | ldVxK x => exact invNext_execLdVxK hs hfetch x
  | ldB x => exact invNext_storeAtI hs hfetch _ (Nat.succ_ne_zero 2)
  | storeRegs x => exact invNext_storeAtI hs hfetch _ (by rw [length_regsBelow]; omega)
  | loadRegs x => exact invNext_execLoadRegs hs hfetch x
  | _ => exact invNext_finish_next hs hfetch rfl rfl rfl

end Invariant

/-- A fetch succeeds up to 0xFFE alone (R61). -/
theorem pc_le_of_fetch {s : State} {w : Word} (h : s.fetch = some w) : s.pc.toNat ≤ 0xFFE := by
  by_contra hpc
  rw [fetch_eq, if_neg (by omega)] at h
  exact absurd h.symm (Option.some_ne_none w)

/-- Settles O42: a failed fetch writes the latch alone; a tick writes the timers alone, and then the instruction keeps
the invariant because its fetch succeeded. -/
theorem stepKeepsTheInvariant : Obligations.StepKeepsTheInvariant := by
  intro s t hs h
  rcases step_cases s with ⟨f, -, hstep⟩ | ⟨-, -, hstep⟩ | ⟨w, -, hfetch, hstep⟩
  · exact nomatch hstep.symm.trans h
  · exact invNext_raise hs .memOutOfBounds t (hstep.symm.trans h)
  · exact invNext_exec (s := s.tick) hs (pc_le_of_fetch hfetch) (decodeWord w) t (hstep.symm.trans h)

/-- Settles O44: nothing is listed in memory, and the stack is all zero. -/
theorem resetMeetsTheInvariant : Obligations.ResetMeetsTheInvariant := ⟨reset_mem_wf, by decide, by decide⟩

end Sys2Proof.Machine

/-! ### Proofs: noninterference of the framebuffer and the sound timer (44_display.md, 45_keypad_timers.md) -/

namespace Sys2Proof.Machine

/-! #### Replacing what only the display and the beep read -/

/-- The state with another sound timer and another framebuffer. -/
def State.withOutputs (st : Byte) (fb : Framebuffer) (s : State) : State := { s with st := st, fb := fb }

/-- A change of the next state, if the result is one. -/
def mapNext (f : State → State) : Result → Result
  | .next s => .next (f s)
  | .fault r => .fault r
  | .refused r => .refused r

section Outputs

variable (st : Byte) (fb : Framebuffer)

/-- A range check looks at `i` alone. -/
theorem withRange_withOutputs (len : Nat) (s : State) (body : Result) :
    withRange len (s.withOutputs st fb) (mapNext (State.withOutputs st fb) body) =
      mapNext (State.withOutputs st fb) (withRange len s body) := by
  rw [withRange_eq, withRange_eq]
  show (if len = 0 ∨ s.i.toNat + len ≤ 4096 then _ else _) = _
  split <;> rfl

theorem storeAtI_withOutputs (bytes : List Byte) (s : State) :
    storeAtI bytes (s.withOutputs st fb) = mapNext (State.withOutputs st fb) (storeAtI bytes s) :=
  withRange_withOutputs st fb bytes.length s (finish .next { s with mem := s.mem.writeBytes s.i.toNat bytes })

theorem setRegsFrom_withOutputs (bytes : List Byte) (s : State) (k : Nat) :
    (s.withOutputs st fb).setRegsFrom k bytes = (s.setRegsFrom k bytes).withOutputs st fb := by
  induction bytes generalizing s k with
  | nil => rfl
  | cons b bytes ih => exact ih (s.setReg (BitVec.ofNat 4 k) b) (k + 1)

theorem skipOnKey_withOutputs (wanted : Bool) (x : Nibble) (s : State) :
    skipOnKey wanted x (s.withOutputs st fb) = mapNext (State.withOutputs st fb) (skipOnKey wanted x s) := by
  have hx : (s.withOutputs st fb).reg x = s.reg x := rfl
  unfold skipOnKey
  rw [hx]
  cases keyIndex (s.reg x) <;> rfl

theorem exec_ldVxK_withOutputs (x : Nibble) (s : State) :
    exec (.ldVxK x) (s.withOutputs st fb) = mapNext (State.withOutputs st fb) (exec (.ldVxK x) s) := by
  have hkey : (s.withOutputs st fb).key = s.key := rfl
  simp only [exec, execLdVxK, hkey]
  cases keySelect s.key <;> rfl

theorem exec_call_withOutputs (nnn : Addr12) (s : State) :
    exec (.call nnn) (s.withOutputs st fb) = mapNext (State.withOutputs st fb) (exec (.call nnn) s) := by
  by_cases h : s.sp.val < 16
  · rw [exec_call_of_lt nnn h, exec_call_of_lt nnn (s := s.withOutputs st fb) h]
    rfl
  · have hfull : s.sp.val = 16 := by omega
    rw [raises_call_of_full nnn hfull, raises_call_of_full nnn (s := s.withOutputs st fb) hfull]
    rfl

theorem exec_ret_withOutputs (s : State) :
    exec .ret (s.withOutputs st fb) = mapNext (State.withOutputs st fb) (exec .ret s) := by
  by_cases h : s.sp.val = 0
  · rw [raises_ret_of_empty h, raises_ret_of_empty (s := s.withOutputs st fb) h]
    rfl
  · have htop : s.sp.val = (⟨s.sp.val - 1, by omega⟩ : Fin 16).val + 1 := by simp only; omega
    rw [exec_ret_of_top htop, exec_ret_of_top (s := s.withOutputs st fb) htop]
    rfl

/-- An instruction that writes neither the framebuffer nor the sound timer reads neither: replacing them before it is
replacing them after it. -/
theorem exec_withOutputs (i : Instr) (s : State) (hfb : (writes s i).fb = false) (hst : (writes s i).st = false) :
    exec i (s.withOutputs st fb) = mapNext (State.withOutputs st fb) (exec i s) := by
  cases i with
  | cls => exact nomatch hfb
  | drw x y n => exact nomatch hfb
  | ldSTVx x => exact nomatch hst
  | ret => exact exec_ret_withOutputs st fb s
  | call nnn => exact exec_call_withOutputs st fb nnn s
  | skp x => exact skipOnKey_withOutputs st fb true x s
  | sknp x => exact skipOnKey_withOutputs st fb false x s
  | ldVxK x => exact exec_ldVxK_withOutputs st fb x s
  | ldB x => exact storeAtI_withOutputs st fb (decimalDigits (s.reg x)) s
  | storeRegs x => exact storeAtI_withOutputs st fb (s.regsBelow (x.toNat + 1)) s
  | loadRegs x =>
    refine Eq.trans ?_ (withRange_withOutputs st fb _ s (finish .next _))
    exact congrArg (fun u => withRange _ (s.withOutputs st fb) (finish .next u)) (setRegsFrom_withOutputs st fb _ s 0)
  | _ => rfl

end Outputs

/-! #### Drawing on another framebuffer -/

/-- `DRW` raises when a byte of its sprite does not exist (D5). -/
theorem raises_drw_of_outOfBounds (x y : Nibble) {n : Nibble} {s : State}
    (h : ¬ (n.toNat = 0 ∨ s.i.toNat + n.toNat - 1 ≤ 0xFFF)) : Raises (.drw x y n) s .memOutOfBounds :=
  raises_of_faultCondition (show 1 ≤ n.toNat ∧ s.i.toNat + n.toNat - 1 > 0xFFF by omega)

theorem setReg_setReg (s : State) (x : Nibble) (a b : Byte) : (s.setReg x a).setReg x b = s.setReg x b := by
  simp only [State.setReg, Vector.set_set]

/-- Another framebuffer under a sprite shows in the framebuffer and `VF` alone. -/
theorem drawSprite_replace_fb (x y : Nibble) (bytes : List Byte) (s : State) (fb : Framebuffer) :
    ∃ fb' b, drawSprite x y bytes { s with fb := fb } = { (drawSprite x y bytes s).setReg vf b with fb := fb' } := by
  let drawn := blit (s.reg x).toNat (s.reg y).toNat bytes (fb, false)
  refine ⟨drawn.1, flagByte drawn.2, ?_⟩
  rw [drawSprite, drawSprite, setReg_setReg]
  rfl

/-! #### Two executions from states that differ in an output -/

section Replace

variable {i : Instr} {s t : State} (h : exec i s = .next t)
include h

/-- An instruction that writes neither output answers, with another sound timer, the same but for the sound timer. -/
theorem exec_replace_st_of_frame (hfb : (writes s i).fb = false) (hst : (writes s i).st = false) (a : Byte) :
    exec i { s with st := a } = .next { t with st := a } := by
  have hframe := instructionsWriteOnlyTheirOwn i s t h
  calc exec i (s.withOutputs a s.fb)
    _ = .next (t.withOutputs a s.fb) := by rw [exec_withOutputs a s.fb i s hfb hst, h]; rfl
    _ = .next { t with st := a } := by rw [← hframe.fb hfb]; rfl

/-- An instruction that writes neither output answers, with another framebuffer, the same but for the framebuffer. -/
theorem exec_replace_fb_of_frame (hfb : (writes s i).fb = false) (hst : (writes s i).st = false) (fb : Framebuffer) :
    exec i { s with fb := fb } = .next { t with fb := fb } := by
  have hframe := instructionsWriteOnlyTheirOwn i s t h
  calc exec i (s.withOutputs s.st fb)
    _ = .next (t.withOutputs s.st fb) := by rw [exec_withOutputs s.st fb i s hfb hst, h]; rfl
    _ = .next { t with fb := fb } := by rw [← hframe.st hst]; rfl

/-- With another sound timer an instruction answers the same but for the sound timer. -/
theorem exec_replace_st (a : Byte) : ∃ b, exec i { s with st := a } = .next { t with st := b } := by
  cases i with
  | cls => cases h; exact ⟨a, rfl⟩
  | ldSTVx x => cases h; exact ⟨s.reg x, rfl⟩
  | drw x y n =>
    by_cases hrange : n.toNat = 0 ∨ s.i.toNat + n.toNat - 1 ≤ 0xFFF
    · rw [exec_drw_of_inBounds x y hrange] at h
      cases h
      exact ⟨a, exec_drw_of_inBounds x y (s := { s with st := a }) hrange⟩
    · rw [raises_drw_of_outOfBounds x y hrange] at h
      cases h
      exact ⟨a, raises_drw_of_outOfBounds x y (s := { s with st := a }) hrange⟩
  | _ => exact ⟨a, exec_replace_st_of_frame h rfl rfl a⟩

/-- With another framebuffer an instruction answers the same but for the framebuffer, and `VF` for `DRW`. -/
theorem exec_replace_fb (fb : Framebuffer) :
    (∃ fb', exec i { s with fb := fb } = .next { t with fb := fb' }) ∨
    ((∃ x y n, i = .drw x y n) ∧ ∃ fb' b, exec i { s with fb := fb } = .next { t.setReg vf b with fb := fb' }) := by
  cases i with
  | cls => cases h; exact .inl ⟨Framebuffer.blank, rfl⟩
  | ldSTVx x => cases h; exact .inl ⟨fb, rfl⟩
  | drw x y n =>
    by_cases hrange : n.toNat = 0 ∨ s.i.toNat + n.toNat - 1 ≤ 0xFFF
    · rw [exec_drw_of_inBounds x y hrange] at h
      cases h
      obtain ⟨fb', b, hdraw⟩ := drawSprite_replace_fb x y (s.mem.readBytes s.i.toNat n.toNat) s fb
      refine .inr ⟨⟨x, y, n, rfl⟩, fb', b, (exec_drw_of_inBounds x y (s := { s with fb := fb }) hrange).trans ?_⟩
      exact congrArg (finish .next) hdraw
    · rw [raises_drw_of_outOfBounds x y hrange] at h
      cases h
      exact .inl ⟨fb, raises_drw_of_outOfBounds x y (s := { s with fb := fb }) hrange⟩
  | _ => exact .inl ⟨fb, exec_replace_fb_of_frame h rfl rfl fb⟩

end Replace

/-! #### Two steps from states that differ in an output -/

/-- A failed fetch raises before the tick (R61). -/
theorem step_of_no_fetch {s : State} (hf : s.fault = none) (hw : s.fetch = none) :
    step s = .next { s with fault := some .memOutOfBounds } := by
  simp only [step, hf, hw, raise_eq]

/-- Settles O47: neither the latch, nor the fetch, nor any instruction looks at the sound timer. -/
theorem soundTimerIsNeverRead : Obligations.SoundTimerIsNeverRead := by
  intro s t a h
  rcases step_cases s with ⟨f, -, hstep⟩ | ⟨hf, hw, hstep⟩ | ⟨w, hf, hw, hstep⟩
  · exact nomatch hstep.symm.trans h
  · obtain rfl : t = { s with fault := some .memOutOfBounds } := Host.Outcome.next.inj (h.symm.trans hstep)
    exact ⟨a, step_of_no_fetch (s := { s with st := a }) hf hw⟩
  · obtain ⟨b, hexec⟩ := exec_replace_st (hstep.symm.trans h) (countDown a)
    exact ⟨b, (step_of_fetch (s := { s with st := a }) hf hw).trans hexec⟩

/-- Settles O46: neither the latch nor the fetch looks at the framebuffer, and of the instructions `DRW` alone. -/
theorem framebufferShowsOnlyInTheCollisionFlag : Obligations.FramebufferShowsOnlyInTheCollisionFlag := by
  intro s t fb h
  rcases step_cases s with ⟨f, -, hstep⟩ | ⟨hf, hw, hstep⟩ | ⟨w, hf, hw, hstep⟩
  · exact nomatch hstep.symm.trans h
  · obtain rfl : t = { s with fault := some .memOutOfBounds } := Host.Outcome.next.inj (h.symm.trans hstep)
    exact .inl ⟨fb, step_of_no_fetch (s := { s with fb := fb }) hf hw⟩
  · have hstep' := step_of_fetch (s := { s with fb := fb }) hf hw
    rcases exec_replace_fb (hstep.symm.trans h) fb with ⟨fb', hexec⟩ | ⟨⟨x, y, n, hi⟩, fb', b, hexec⟩
    · exact .inl ⟨fb', hstep'.trans hexec⟩
    · exact .inr ⟨⟨w, x, y, n, hw, hi⟩, fb', b, hstep'.trans hexec⟩

end Sys2Proof.Machine

/-! ### Proofs: canonical memory as data (20_memory.md) -/

namespace Sys2Proof.Machine

/-- Cells in the order of their addresses. -/
def Precedes (c d : Host.Cell) : Prop := c.1 < d.1

/-- Addresses that rise are pairwise in order. -/
theorem pairwise_precedes_of_risesFrom {m : Memory} {lo : Nat} (h : m.risesFrom lo = true) :
    m.Pairwise Precedes ∧ ∀ c ∈ m, lo ≤ c.1 := by
  induction m generalizing lo with
  | nil => exact ⟨.nil, nofun⟩
  | cons c m ih =>
    simp only [Memory.risesFrom, Bool.and_eq_true, decide_eq_true_eq] at h
    obtain ⟨hlo, htail⟩ := h
    obtain ⟨hpairs, hrise⟩ := ih htail
    refine ⟨List.pairwise_cons.2 ⟨hrise, hpairs⟩, List.forall_mem_cons.2 ⟨hlo, fun d hd => ?_⟩⟩
    have := hrise d hd
    omega

/-- A listed cell is what its address reads as. -/
theorem read_of_mem {m : Memory} (h : m.Pairwise Precedes) {c : Host.Cell} (hc : c ∈ m) : m.read c.1 = c.2 := by
  induction m with
  | nil => exact nomatch hc
  | cons d m ih =>
    obtain ⟨hd, hm⟩ := List.pairwise_cons.1 h
    rcases List.mem_cons.1 hc with rfl | hc
    · simp only [Memory.read, if_true]
    · have hne : d.1 ≠ c.1 := (hd c hc).ne
      simp only [Memory.read, hne, if_false, ih hm hc]

/-- An address that reads as something else than its reset contents is listed. -/
theorem mem_of_read_ne {m : Memory} {a : Nat} (h : m.read a ≠ unlisted a) : (a, m.read a) ∈ m := by
  induction m with
  | nil => exact absurd rfl h
  | cons c m ih =>
    by_cases hca : c.1 = a
    · subst hca
      simp only [Memory.read, if_true, List.mem_cons, Prod.mk.eta, true_or]
    · simp only [Memory.read, hca, if_false] at h ⊢
      exact List.mem_cons_of_mem _ (ih h)

/-- The cells of a canonical memory are read off it: one for each address that differs from its reset contents. -/
theorem mem_iff_read {m : Memory} (h : m.wf = true) (c : Host.Cell) :
    c ∈ m ↔ c.1 < memSize ∧ m.read c.1 = c.2 ∧ c.2 ≠ unlisted c.1 := by
  simp only [Memory.wf, Bool.and_eq_true, List.all_eq_true, decide_eq_true_eq, bne_iff_ne] at h
  obtain ⟨hrise, hcells⟩ := h
  constructor
  · intro hc
    obtain ⟨hlt, hne⟩ := hcells c hc
    exact ⟨hlt, read_of_mem (pairwise_precedes_of_risesFrom hrise).1 hc, hne⟩
  · rintro ⟨-, hread, hne⟩
    obtain ⟨a, b⟩ := c
    have hmem := mem_of_read_ne (m := m) (a := a) (hread ▸ hne)
    rwa [hread] at hmem

theorem pairwise_precedes_of_wf {m : Memory} (h : m.wf = true) : m.Pairwise Precedes := by
  simp only [Memory.wf, Bool.and_eq_true] at h
  exact (pairwise_precedes_of_risesFrom h.1).1

/-- Settles O45: the two list the same cells, each in the order of the addresses. -/
theorem canonicalMemoriesThatReadAlikeAreEqual : Obligations.CanonicalMemoriesThatReadAlikeAreEqual := by
  intro m m' hm hm' hread
  have hirrefl : Std.Irrefl Precedes := ⟨fun c => Nat.lt_irrefl c.1⟩
  have hantisymm : Std.Antisymm Precedes := ⟨fun _ _ hcd hdc => absurd hcd (Nat.lt_asymm hdc)⟩
  refine (pairwise_precedes_of_wf hm).eq_of_mem_iff (pairwise_precedes_of_wf hm') fun c => ?_
  rw [mem_iff_read hm, mem_iff_read hm']
  refine and_congr_right fun hlt => ?_
  rw [hread c.1 (Nat.le_of_lt_succ hlt)]

end Sys2Proof.Machine

/-! ### Proofs: the cycle, the end of a run, and running off the end (40_cycle_and_host.md, 70_reset_and_hazards.md) -/

namespace Sys2Proof.Machine

theorem fetch_of_le {s : State} (h : s.pc.toNat ≤ 0xFFE) :
    s.fetch = some (wordOfBytes (s.mem.read s.pc.toNat) (s.mem.read (s.pc.toNat + 1))) := by
  rw [fetch_eq, if_pos (by omega)]

theorem fetch_of_ge {s : State} (h : 0xFFF ≤ s.pc.toNat) : s.fetch = none := by
  rw [fetch_eq, if_neg (by omega)]

/-- Settles O6: the fetch succeeds, and the instruction runs in the ticked state. -/
theorem stepRunsTheDecodedInstruction : Obligations.StepRunsTheDecodedInstruction := by
  intro s i rest hf hpc hdecode
  obtain ⟨hi, -⟩ := Decoded.instr.inj hdecode
  have hstep := step_of_fetch hf (fetch_of_le hpc)
  rw [hi] at hstep
  exact ⟨s.tick, hstep, toNat_countDown s.dt, toNat_countDown s.st, rfl⟩

/-- Settles O7: the fetch fails, and raises before the tick. -/
theorem fetchBeyondMemoryLatches : Obligations.FetchBeyondMemoryLatches := fun _ hf hpc =>
  step_of_no_fetch hf (fetch_of_ge hpc)

/-- A latched fault stops the step (R67). -/
theorem step_of_latched {s : State} {f : Fault} (h : s.fault = some f) : step s = .fault f := by
  simp only [step, h]

/-- Settles O8: the step and the cycle look at the latch first, and a state with a fault latched is not halted. -/
theorem latchedFaultStopsTheMachine : Obligations.LatchedFaultStopsTheMachine := by
  intro s f rnd h
  refine ⟨step_of_latched h, runCycle_latched rnd h, ?_⟩
  rintro ⟨hnone, -⟩
  exact absurd (h.symm.trans hnone) (Option.some_ne_none f)

/-- Settles O48: the jump's target is `pc`, so the cycle is the tick alone, which keeps all that `HALTED` looks at. -/
theorem selfJumpRepeats : Obligations.SelfJumpRepeats := by
  rintro s ⟨hf, w, nnn, hw, hi, hn⟩
  have htarget : zextNnn nnn = s.pc :=
    BitVec.eq_of_toNat_eq (by rw [zextNnn_eq_ofNat, toNat_ofNat_addr, hn])
  have hstep : step s = .next s.tick := by
    rw [step_of_fetch hf hw, hi]
    show Host.Outcome.next { s.tick with pc := zextNnn nnn } = _
    rw [htarget]
    rfl
  exact ⟨s.tick, hstep, rfl, hf, w, nnn, hw, hi, hn⟩

/-- Zero memory at `pc` is a no-op: the tick, and `pc` 2 further on (R190). -/
theorem step_of_zero_word {s : State} (hf : s.fault = none) (hpc : s.pc.toNat ≤ 0xFFE)
    (hhigh : s.mem.read s.pc.toNat = 0) (hlow : s.mem.read (s.pc.toNat + 1) = 0) :
    step s = .next { s.tick with pc := s.pc + 2 } := by
  have hfetch := fetch_of_le hpc
  rw [hhigh, hlow] at hfetch
  exact step_of_unrecognized (w := 0) rfl hf hfetch

/-- Settles O49, by induction on the number of no-ops: each leaves memory zero above its new `pc`. -/
theorem runningOffTheEndFaults : Obligations.RunningOffTheEndFaults := by
  intro n
  induction n with
  | zero => exact fun s hf hend _ => ⟨s, rfl, rfl, step_of_no_fetch hf (fetch_of_ge (by omega))⟩
  | succ n ih =>
    intro s hf hend hzero
    have hstep := step_of_zero_word hf (by omega) (hzero _ (by omega) (by omega)) (hzero _ (by omega) (by omega))
    have hpc : (s.pc + 2).toNat = s.pc.toNat + 2 := by bv_omega
    obtain ⟨t, hrun, ht, hfault⟩ := ih { s.tick with pc := s.pc + 2 } hf (by simp only; omega)
      fun a hle => hzero a (by simp only at hle; omega)
    refine ⟨t, (run_succ_of_step (M := Sys2Proof.core) n hstep).trans hrun, ?_, hfault⟩
    simp only at ht
    omega

end Sys2Proof.Machine

/-! ### Proofs: the host's operations (40_cycle_and_host.md section 2, 60_exceptions.md) -/

namespace Sys2Proof.Machine

/-! #### The state after `load` and `run_cycle` -/

/-- `load` leaves the state as it was, or stores an image that fits. -/
theorem fst_hostLoad (bytes : List Byte) (s : State) :
    (hostLoad bytes s).1 = s ∨ programBase + bytes.length ≤ memSize ∧
      (hostLoad bytes s).1 = { s with mem := s.mem.writeBytes programBase bytes } := by
  by_cases h : programBase + bytes.length ≤ memSize
  · exact .inr ⟨h, by rw [hostLoad_ok s h]⟩
  · exact .inl (by rw [hostLoad_overflow s (Nat.lt_of_not_le h)])

/-- `run_cycle` leaves the state as it was, or as a step leaves it but for the host's entropy. -/
theorem fst_runCycle (rnd : Byte) (s : State) :
    (runCycle rnd s).1 = s ∨ ∃ t, step { s with entropy := [rnd] } = .next t ∧
      (runCycle rnd s).1 = { t with entropy := s.entropy } := by
  rcases Option.eq_none_or_eq_some s.fault with hf | ⟨f, hf⟩
  · obtain ⟨t, hstep⟩ := step_answers_next (s := { s with entropy := [rnd] }) hf
    exact .inr ⟨t, hstep, by rw [runCycle_next hstep]⟩
  · exact .inl (by rw [runCycle_latched rnd hf])

/-- Settles O43: `load` stores in bounds, the key events write no cell the invariant speaks of, `run_cycle` is a step. -/
theorem hostOperationsKeepTheInvariant : Obligations.HostOperationsKeepTheInvariant := by
  intro s op hs
  cases op with
  | construct => exact resetMeetsTheInvariant
  | reset => exact resetMeetsTheInvariant
  | load bytes =>
    rcases fst_hostLoad bytes s with h | ⟨hfit, h⟩ <;> rw [perform, h]
    · exact hs
    · obtain ⟨hwf, hpc, hentries⟩ := hs
      exact ⟨wf_writeBytes bytes hwf hfit, hpc, hentries⟩
  | keyDown k => exact hs
  | keyUp k => exact hs
  | runCycle rnd =>
    rcases fst_runCycle rnd s with h | ⟨t, hstep, h⟩ <;> rw [perform, h]
    · exact hs
    · exact stepKeepsTheInvariant { s with entropy := [rnd] } t hs hstep

/-- Settles O40: only the two resets write the latch of a state that has a fault latched. -/
theorem onlyResetClearsTheLatch : Obligations.OnlyResetClearsTheLatch := by
  refine ⟨fun s f op hs hconstruct hreset => ?_, fun s => ⟨rfl, rfl⟩⟩
  cases op with
  | construct => exact absurd rfl hconstruct
  | reset => exact absurd rfl hreset
  | load bytes =>
    rcases fst_hostLoad bytes s with h | ⟨-, h⟩ <;> rw [perform, h] <;> exact hs
  | keyDown k => exact hs
  | keyUp k => exact hs
  | runCycle rnd => rw [perform, runCycle_latched rnd hs]; exact hs

/-- A step leaves the keypad as it was (R140). -/
theorem key_of_step {s t : State} (h : step s = .next t) : t.key = s.key := by
  rcases step_cases s with ⟨f, -, hstep⟩ | ⟨-, -, hstep⟩ | ⟨w, -, -, hstep⟩
  · exact nomatch hstep.symm.trans h
  · obtain rfl : t = { s with fault := some .memOutOfBounds } := Host.Outcome.next.inj (h.symm.trans hstep)
    rfl
  · exact (instructionsWriteOnlyTheirOwn _ s.tick t (hstep.symm.trans h)).key

/-- Settles O41: no instruction's frame holds the keypad, and of the host's operations only the four write it. -/
theorem onlyTheHostWritesTheKeypad : Obligations.OnlyTheHostWritesTheKeypad := by
  refine ⟨fun s t h => key_of_step h, fun s op hconstruct hreset hdown hup => ?_⟩
  cases op with
  | construct => exact absurd rfl hconstruct
  | reset => exact absurd rfl hreset
  | load bytes =>
    rcases fst_hostLoad bytes s with h | ⟨-, h⟩ <;> rw [perform, h]
  | keyDown k => exact absurd rfl (hdown k)
  | keyUp k => exact absurd rfl (hup k)
  | runCycle rnd =>
    rcases fst_runCycle rnd s with h | ⟨t, hstep, h⟩ <;> rw [perform, h]
    exact key_of_step (s := { s with entropy := [rnd] }) (t := t) hstep

/-! #### Construct, reset and load -/

/-- Above the font an address nothing has written reads as zero (20_memory.md R31). -/
theorem unlisted_of_ge {a : Nat} (h : 0x050 ≤ a) : unlisted a = 0 := List.getD_eq_default _ _ h

theorem hostReset_atReset (s : State) : (hostReset s).AtReset where
  regs r := Vector.getElem_replicate r.isLt
  index := rfl
  pc := rfl
  sp := rfl
  stack k := Vector.getElem_replicate k.isLt
  dt := rfl
  st := rfl
  font _ _ := rfl
  zeros _ h _ := unlisted_of_ge h
  fb := get_blank
  key := rfl
  fault := rfl

/-- Settles O50: `reset` writes every cell, and `construct` gives what `reset` gives. -/
theorem constructAndResetGiveTheResetState : Obligations.ConstructAndResetGiveTheResetState :=
  ⟨hostReset_atReset State.reset, hostReset_atReset State.reset, hostReset_atReset⟩

/-- Settles O51: an image that fits is one block write at the program base. -/
theorem loadCopiesOrRefuses : Obligations.LoadCopiesOrRefuses :=
  ⟨fun bytes s h => ⟨_, hostLoad_ok s h, rfl, fun a => read_writeBytes bytes s.mem 0x200 a⟩,
    fun _ s h => hostLoad_overflow s h⟩

/-! #### What `run_cycle` returns -/

/-- Rows of `n` cells laid end to end hold cell `c` of row `r` at `r * n + c`. -/
theorem getElem?_flatMap_toList {n : Nat} (rows : List (Vector Bool n)) {r c : Nat} (hr : r < rows.length) (hc : c < n) :
    (rows.flatMap Vector.toList)[r * n + c]? = some rows[r][c] := by
  induction rows generalizing r with
  | nil => exact absurd hr (Nat.not_lt_zero r)
  | cons row rows ih =>
    rw [List.flatMap_cons]
    cases r with
    | zero =>
      rw [Nat.zero_mul, Nat.zero_add, List.getElem?_append_left (by simpa using hc)]
      simp [hc]
    | succ r =>
      have hle : row.toList.length ≤ (r + 1) * n + c := by rw [Vector.length_toList, Nat.succ_mul]; omega
      have hsub : (r + 1) * n + c - row.toList.length = r * n + c := by
        rw [Vector.length_toList, Nat.succ_mul]; omega
      rw [List.getElem?_append_right hle, hsub, ih (Nat.lt_of_succ_lt_succ hr)]
      rfl

theorem length_snapshot (fb : Framebuffer) : (snapshot fb).length = 2048 := by
  simp [snapshot, List.length_flatMap]

/-- The snapshot is row-major (R65). -/
theorem getElem?_snapshot (fb : Framebuffer) (row : Fin 32) (col : Fin 64) :
    (snapshot fb)[row.val * 64 + col.val]? = some (fb.get row col) :=
  getElem?_flatMap_toList fb.toList (by simp) col.isLt

/-- Settles O53: the rows are laid end to end, and the outputs are those of the state the step leaves. -/
theorem cycleReturnsSnapshotAndBeep : Obligations.CycleReturnsSnapshotAndBeep := by
  refine ⟨fun fb => ⟨length_snapshot fb, getElem?_snapshot fb⟩, fun rnd s t h ht => ?_⟩
  simp only [runCycle_next h, ht, beep_eq_decide]

/-- A cycle whose step latched a fault returns that fault with its info (R163). -/
theorem snd_runCycle_of_latched {s t : State} {rnd : Byte} {f : Fault}
    (h : step { s with entropy := [rnd] } = .next t) (ht : t.fault = some f) :
    (runCycle rnd s).2 = .failure f (some (failureInfo s f)) := by
  simp only [runCycle_next h, ht]

/-- A fault's condition looks neither at the timers nor at the entropy. -/
theorem faultCondition_tick {s : State} {i : Instr} {f : Fault} (h : faultCondition s i f) (entropy : List Byte) :
    faultCondition (State.tick { s with entropy := entropy }) i f := by
  unfold faultCondition at h
  split at h
  case h_9 => exact h.elim
  all_goals exact h

theorem failureInfo_of_fetch {s : State} {w : Word} (h : s.fetch = some w) :
    failureInfo s .memOutOfBounds = s.i.toNat := by
  simp only [failureInfo, h, Option.isNone_some, Bool.false_eq_true, if_false]

/-- The key index of a faulting skip is read from the register its word names (R160). -/
theorem failureInfo_of_key {s : State} {w : Word} {x : Nibble} (h : s.fetch = some w) (hx : fieldX w = x) :
    failureInfo s .keyIndexOutOfRange = (s.reg x).toNat := by
  simp only [failureInfo, h, Option.elim_some, hx]

theorem fieldX_of_decodeWord_skp {w : Word} {x : Nibble} (h : decodeWord w = .skp x) : fieldX w = x := by
  obtain ⟨-, hx⟩ := Sys2Proof.Laws.FieldsInPlace.skp x
  rwa [encodeWord_of_decodeWord h] at hx

theorem fieldX_of_decodeWord_sknp {w : Word} {x : Nibble} (h : decodeWord w = .sknp x) : fieldX w = x := by
  obtain ⟨-, hx⟩ := Sys2Proof.Laws.FieldsInPlace.sknp x
  rwa [encodeWord_of_decodeWord h] at hx

/-- Settles O54: the cycle returns the raised fault with the info of its row, read from the state it began in. -/
theorem failureCarriesItsInfo : Obligations.FailureCarriesItsInfo := by
  refine ⟨fun rnd s hf hw => ?fetch, fun rnd s w f hf hw hcond => ?instruction⟩
  case fetch =>
    rw [snd_runCycle_of_latched (step_of_no_fetch (s := { s with entropy := [rnd] }) hf hw) rfl]
    simp only [failureInfo, hw, Option.isNone_none, if_true]
  case instruction =>
    have hstep := (step_of_fetch (s := { s with entropy := [rnd] }) hf hw).trans
      (raises_of_faultCondition (faultCondition_tick hcond [rnd]))
    rw [snd_runCycle_of_latched hstep rfl]
    generalize hi : decodeWord w = i at hcond
    unfold faultCondition at hcond
    split at hcond
    case h_1 | h_2 => rfl
    case h_3 | h_4 | h_5 | h_6 => rw [failureInfo_of_fetch hw]
    case h_7 x => rw [failureInfo_of_key hw (fieldX_of_decodeWord_skp hi)]
    case h_8 x => rw [failureInfo_of_key hw (fieldX_of_decodeWord_sknp hi)]
    case h_9 => exact hcond.elim

/-! #### The codes of the causes -/

/-- The cause that has a code, for the codes 1 to 5. -/
def causeOfCode : Nat → FailureCause
  | 1 => .latched .stackOverflow
  | 2 => .latched .stackUnderflow
  | 3 => .latched .memOutOfBounds
  | 4 => .latched .keyIndexOutOfRange
  | _ => .programLoadOverflow

/-- The codes tell the causes apart. -/
theorem causeOfCode_failureCode : ∀ c : FailureCause, causeOfCode (failureCode c) = c
  | .latched .stackOverflow => rfl
  | .latched .stackUnderflow => rfl
  | .latched .memOutOfBounds => rfl
  | .latched .keyIndexOutOfRange => rfl
  | .programLoadOverflow => rfl

/-- A cycle after which a fault is latched fails with that fault, raised or repeated (R163, R67). -/
theorem cycleCause_of_latched {rnd : Byte} {s : State} {f : Fault} (h : (runCycle rnd s).1.fault = some f) :
    cycleCause (runCycle rnd s).2 = some (.latched f) := by
  cases hs : s.fault with
  | some g =>
    rw [runCycle_latched rnd hs] at h ⊢
    obtain rfl : g = f := Option.some.inj (hs.symm.trans h)
    rfl
  | none =>
    obtain ⟨t, hstep⟩ := step_answers_next (s := { s with entropy := [rnd] }) hs
    rw [runCycle_next hstep] at h
    rw [snd_runCycle_of_latched hstep h, cycleCause]

/-- Settles O55: the codes have an inverse, and the host is answered the cause itself. -/
theorem failureCodesAreTheTables : Obligations.FailureCodesAreTheTables := by
  refine ⟨rfl, Function.LeftInverse.injective causeOfCode_failureCode, fun bytes s h => ?load, fun rnd s f h => ?cycle⟩
  case load => rw [hostLoad_overflow s h]; rfl
  case cycle => rw [cycleCause_of_latched h, Option.map_some]

end Sys2Proof.Machine
